-- ==== Sys2Proof/Word.lean ====
section
/-! DEFINITION. The word types of the block: every value it holds or exchanges is one whole word given by its
numeric value, bit `k` of weight 2^k (spec/20_memory.md R42, spec/00_scope.md R7, R9). -/

namespace Sys2Proof

/-- A state word, seed, bound or integer output: 32 bits, unsigned, arithmetic modulo 2^32 (R7). -/
abbrev Word := BitVec 32

/-- A command word: 34 bits (spec/30_encoding.md R60). -/
abbrev CommandWord := BitVec 34

/-- A response's data field: 64 bits (spec/30_encoding.md R63). -/
abbrev DataWord := BitVec 64

/-- A response word: 66 bits (spec/30_encoding.md R63). -/
abbrev ResponseWord := BitVec 66

end Sys2Proof
end

