-- ==== Sys2Proof/Syntax.lean ====
section
/-! DEFINITION. What can be issued to the block: the four commands (spec/30_encoding.md R61) and the host's
notation for a sequence of them (R68, R69). -/

namespace Sys2Proof

/-- The four commands of the block, one per row of spec/opcode_table.json (R61). An operand stands only where the
spec gives the command one (R62): `next_u32` and `next_f64` have none. -/
inductive Instr where
  /-- `seed <s>` (R80). -/
  | seed (value : Word)
  /-- `next_u32` (R90). -/
  | nextU32
  /-- `next_f64` (R125). -/
  | nextF64
  /-- `next_bounded_u32 <max_value>` (R135). -/
  | nextBoundedU32 (maxValue : Word)
  deriving DecidableEq, Repr

/-- Whether a command is a draw: `next_u32`, `next_f64` or `next_bounded_u32` (the glossary R11). -/
def Instr.isDraw : Instr → Bool
  | .seed _ => false
  | .nextU32 => true
  | .nextF64 => true
  | .nextBoundedU32 _ => true

/-- The mnemonics of the block's assembly syntax (R68). -/
inductive Mnemonic where
  | seed
  | nextU32
  | nextF64
  | nextBoundedU32
  deriving DecidableEq, Repr

/-- Whether the assembly form of a mnemonic has a `<u32>` operand (R68). -/
def Mnemonic.hasOperand : Mnemonic → Bool
  | .seed => true
  | .nextU32 => false
  | .nextF64 => false
  | .nextBoundedU32 => true

/-- One line of a host program (R68, R69). Operands are numbers as written, not yet checked to fit. -/
inductive HostLine where
  /-- An assembly line: a mnemonic and the operand written after it, if any (R68). -/
  | op (mnemonic : Mnemonic) (operand : Option Nat)
  /-- `reset`: the block's reset event (R69). -/
  | reset
  /-- `.cmd <hex>`: the command word as it stands (R69). -/
  | cmd (word : Nat)
  /-- `.rep n`: opens a repetition (R69). -/
  | rep (count : Nat)
  /-- `.endr`: closes the innermost repetition (R69). -/
  | endr
  deriving DecidableEq, Repr

end Sys2Proof
end

