-- ==== Sys2Proof/WellFormed.lean ====
section
/-! DEFINITION. The checks the spec puts on what is issued: which commands, command words and host lines are
legal. -/

namespace Sys2Proof

/-- Every term of `Instr` is a legal command: "Every value 0 to 4294967295 is legal" for `seed` and
`next_bounded_u32`, and the other two have no operand (spec/30_encoding.md R62). -/
def Instr.wellFormed : Instr → Bool
  | .seed _ => true
  | .nextU32 => true
  | .nextF64 => true
  | .nextBoundedU32 _ => true

/-- A command word is legal unless it is a reserved encoding: `op` 0b01 or 0b10 with `arg` ≠ 0 (R65). -/
def CommandWord.wellFormed (w : CommandWord) : Bool :=
  !((w.extractLsb' 32 2 == 0b01#2 || w.extractLsb' 32 2 == 0b10#2) && w.extractLsb' 0 32 != 0#32)

/-- A `<u32>` of the assembly syntax is "from 0 to 4294967295" (R68). -/
def fitsU32 (n : Nat) : Bool := n < 2 ^ 32

/-- A host line is legal when its operand is there exactly where its mnemonic takes one and fits 32 bits (R68),
and a `.cmd` word fits 34 bits (R69). -/
def HostLine.wellFormed : HostLine → Bool
  | .op m none => !m.hasOperand
  | .op m (some n) => m.hasOperand && fitsU32 n
  | .reset => true
  | .cmd w => w < 2 ^ 34
  | .rep _ => true
  | .endr => true

end Sys2Proof
end

