-- ==== Sys2Proof/Decode.lean ====
section
/-! DEFINITION. Command words: their fields, the opcode table, the decoder and the encoder
(spec/30_encoding.md R60 to R67). -/

namespace Sys2Proof

/-- Field `op`, bits 33:32 of a command word (R60). -/
def opField (w : CommandWord) : BitVec 2 := w.extractLsb' 32 2

/-- Field `arg`, bits 31:0 of a command word, an unsigned 32-bit integer, neither extended nor scaled (R60, R62). -/
def argField (w : CommandWord) : Word := w.extractLsb' 0 32

/-- A row of the field summary R67: a word matches it when `(word & mask) == match`. -/
structure OpcodeRow where
  mnemonic : Mnemonic
  matchBits : CommandWord
  mask : CommandWord
  deriving DecidableEq, Repr

/-- `(word & mask) == match` (R67). -/
def OpcodeRow.covers (r : OpcodeRow) (w : CommandWord) : Bool := w &&& r.mask == r.matchBits

/-- The four rows of R67 (spec/opcode_table.json). -/
def opcodeTable : List OpcodeRow :=
  [ ⟨.seed,           0x000000000#34, 0x300000000#34⟩,
    ⟨.nextU32,        0x100000000#34, 0x3FFFFFFFF#34⟩,
    ⟨.nextF64,        0x200000000#34, 0x3FFFFFFFF#34⟩,
    ⟨.nextBoundedU32, 0x300000000#34, 0x300000000#34⟩ ]

/-- The mnemonic a command is written with (R61, R68). -/
def Instr.mnemonic : Instr → Mnemonic
  | .seed _ => .seed
  | .nextU32 => .nextU32
  | .nextF64 => .nextF64
  | .nextBoundedU32 _ => .nextBoundedU32

/-- Why the decoder gives no command: the word is the reserved encoding of R65, which the block answers with
status ILLEGAL (spec/60_exceptions.md R152). -/
inductive DecodeError where
  | reservedEncoding
  deriving DecidableEq, Repr

/-- The decoder, total over all 2^34 command words (R66). It reads no state, so a reserved word is rejected
whatever the cursor is (R154). -/
def decode (w : CommandWord) : Except DecodeError Instr :=
  match (opField w).toNat with
  | 0 => .ok (.seed (argField w))
  | 1 => if argField w = 0#32 then .ok .nextU32 else .error .reservedEncoding
  | 2 => if argField w = 0#32 then .ok .nextF64 else .error .reservedEncoding
  | _ => .ok (.nextBoundedU32 (argField w))

/-- The command word with the given fields (R60). -/
def commandWord (op : BitVec 2) (arg : Word) : CommandWord := op ++ arg

/-- The command word of a command: the opcodes of R61, `arg` = 0 where the command has no argument (R62). -/
def encode : Instr → CommandWord
  | .seed v => commandWord 0b00#2 v
  | .nextU32 => commandWord 0b01#2 0#32
  | .nextF64 => commandWord 0b10#2 0#32
  | .nextBoundedU32 m => commandWord 0b11#2 m

/-- A number as a command word, where it is one (a word is 34 bits, R60). -/
def toCommandWord (n : Nat) : Option CommandWord :=
  if n < 2 ^ 34 then some (BitVec.ofNat 34 n) else none

/-- What the decoder reads from an instruction whose bits are `w`, bit 0 the least significant bit of the 34-bit
word, the bits from `nbits` up being 0. The block has no byte order (spec/20_memory.md R42): a command word is
given by its number. -/
def decodeTableWord (nbits w : Nat) : Option Instr :=
  match toCommandWord (w % 2 ^ nbits) with
  | none => none
  | some c => (decode c).toOption

end Sys2Proof
end

