-- ==== Sys2Proof/Config.lean ====
section
/-! DEFINITION. The open parameter of the spec and the one free value. The algorithm's constants are "fixed, not
configurable" (spec/00_scope.md R6): they stand in Machine/Constants.lean, and the length `N` = 624 is written out. -/

namespace Sys2Proof.Config

/-- FREE VALUE. What word `i` of the state vector holds after the `epoch`-th reset and before any `seed`: the spec
leaves it unspecified and forbids a model to pick a value (spec/10_state.md R29; U1 of
spec/93_implementation_defined.md), so it has no body. DESIGN CHOICE (log 3). -/
opaque unwrittenWord (epoch i : Nat) : Word

/-- How many byte lanes carry a 34-bit command word (the six bits above bit 33 are 0). -/
abbrev commandLanes : Nat := 5

/-- How many byte lanes carry a 66-bit response word (the six bits above bit 65 are 0). -/
abbrev responseLanes : Nat := 9

/-- `HOST_LANE_ORDER` for command words, OPEN (spec/92_eei_decisions.md D14, U6): the place in time of each byte
lane on a bus narrower than the word. No rule and no step reads it. -/
opaque hostLaneOrder : Equiv.Perm (Fin commandLanes)

/-- `HOST_LANE_ORDER` for response words, OPEN (D14, U6). -/
opaque hostResponseLaneOrder : Equiv.Perm (Fin responseLanes)

end Sys2Proof.Config
end

