-- ==== Sys2Proof/Machine/Operands.lean ====
section
/-! DEFINITION. Operand and result forms: the index arithmetic of the state vector (spec/20_memory.md R41,
spec/42_twist_engine.md R102) and the zero extension of an integer result (spec/30_encoding.md R64). A command's
one operand, its `arg` field, is assembled in Decode.lean (R62). -/

namespace Sys2Proof.Machine

/-- `j = (i + 1) mod 624`, the twist's next index (R100, R102). -/
def nextIndex (i : Nat) : Nat := (i + 1) % 624

/-- `k = (i + 397) mod 624`, the twist's feed index (R100, R102). -/
def feedIndex (i : Nat) : Nat := (i + 397) % 624

/-- "all indices are provably in range given the modular arithmetic" (R41). -/
theorem nextIndex_lt (i : Nat) : nextIndex i < 624 := Nat.mod_lt _ (by decide)

/-- "all indices are provably in range given the modular arithmetic" (R41). -/
theorem feedIndex_lt (i : Nat) : feedIndex i < 624 := Nat.mod_lt _ (by decide)

/-- `zext_64`: a 32-bit result in `data[31:0]`, `data[63:32]` = 0 (spec/00_scope.md R9, R64). -/
def zext64 (v : Word) : DataWord := v.setWidth 64

end Sys2Proof.Machine
end

