-- ==== Sys2Proof/Machine/Constants.lean ====
section
/-! DEFINITION. The algorithm's hardwired constants (spec/00_scope.md R6) and the table `MAG01`
(spec/10_state.md R28). They are not state, and no command reads them out (R27). -/

namespace Sys2Proof.Machine

/-- `M` = 397, the twist offset (R6). -/
abbrev twistOffset : Nat := 397

/-- `MATRIX_A`, the twist feedback polynomial (R6). -/
def matrixA : Word := 0x9908B0DF#32

/-- `UPPER_MASK`, bit 31 only (R6). -/
def upperMask : Word := 0x80000000#32

/-- `LOWER_MASK`, bits 30..0 (R6). -/
def lowerMask : Word := 0x7FFFFFFF#32

/-- `SEED_MULTIPLIER` (R6). -/
def seedMultiplier : Word := 1812433253#32

/-- `TEMPER_B`, the mask of the 7-bit left-shift stage (R6). -/
def temperB : Word := 0x9D2C5680#32

/-- `TEMPER_C`, the mask of the 15-bit left-shift stage (R6). -/
def temperC : Word := 0xEFC60000#32

/-- The two-entry read-only table `MAG01` (R28). -/
def mag01Table : Vector Word 2 := #v[0x00000000#32, matrixA]

/-- `MAG01[b]` for a one-bit index `b` (R28). -/
def mag01 (b : BitVec 1) : Word := mag01Table[b.toNat]'(b.isLt)

end Sys2Proof.Machine
end

