-- ==== Sys2Proof/Machine/State.lean ====
section
/-! DEFINITION. The state: the block's architectural record of two pieces (spec/10_state.md R20, R22) and its
host port, with the state after reset (R29, spec/70_reset_and_hazards.md R170). -/

namespace Sys2Proof.Machine

/-- The non-OK outcomes of a command (spec/60_exceptions.md section 1). A command that raises one writes no state,
is answered with its status and data 0, and the next command is executed like any other (R156, R157): the reason is
RECORDED in the command's response, and `step` goes on. `step` answers `Outcome.fault` for no state (log 4). -/
inductive Fault where
  /-- Status UNSEEDED, code 0b01: a draw is issued while `cur` = 625 (R151). Raised by the three draws. Unsafe where a
  real block answers such a draw with a value (log 4). -/
  | unseeded
  /-- Status ILLEGAL, code 0b10: a reserved encoding (R152). Raised by the decoder, before any other check (R154).
  Unsafe where a real block gives these words a meaning (log 4). -/
  | illegal
  deriving DecidableEq, Repr

/-- Why the model gives an instruction no meaning. -/
inductive Refusal where
  /-- The instruction has no meaning yet, by its mnemonic. Safe. Raised by no arm of this model: every row of
  the opcode table has its meaning. -/
  | notModelled (mnemonic : String)
  deriving DecidableEq, Repr

/-- The one response of a command (spec/30_encoding.md R63): status OK with its 64 data bits, or a non-OK status,
whose data are 0. The reserved status 0b11 cannot be written (R153). `Response.word` (Flags.lean) gives its 66 bits. -/
inductive Response where
  | ok (data : DataWord)
  | raised (reason : Fault)
  deriving DecidableEq, Repr

/-- What the outside world does to the block, one event at a time (spec/92_eei_decisions.md D1, D11). -/
inductive HostEvent where
  /-- The host issues a command word (spec/30_encoding.md R60). -/
  | command (word : CommandWord)
  /-- The reset event, between two commands (spec/70_reset_and_hazards.md R170). -/
  | reset
  /-- The host issues a command word and reset occurs while it executes (R170, D25). -/
  | commandCutByReset (word : CommandWord)
  /-- The platform loses power: treated as a reset (spec/60_exceptions.md R163, D24). -/
  | powerLoss
  deriving DecidableEq, Repr

/-- The 624-word state vector `x` (spec/10_state.md R20). -/
abbrev StateVector := Vector Word 624

/-- The cursor `cur`: a 10-bit register whose legal values are 0 to 625 (R22), typed below 626 as R24 and U5 allow. -/
abbrev Cursor := Fin 626

/-- The block's architectural state: "the record { x : 624 words of 32 bits, cur : 10 bits } and nothing else"
(spec/10_state.md section 1). -/
structure Block where
  x : StateVector
  cur : Cursor
  deriving DecidableEq, Repr

/-- The machine's state: the block, and the model's own record of its host port. -/
structure State where
  /-- The architectural state `x` and `cur` (R20, R22). -/
  block : Block
  /-- MODEL'S OWN (log 2). What the host will do next, oldest first: the command stream the block accepts in order
  (spec/20_memory.md R47). -/
  inbox : List HostEvent
  /-- MODEL'S OWN (log 2). The command words accepted since the last reset, oldest first. -/
  accepted : List CommandWord
  /-- MODEL'S OWN (log 2). The responses delivered since the last reset, oldest first: a run's observation
  (spec/70_reset_and_hazards.md R173). -/
  responses : List Response
  /-- MODEL'S OWN (log 3). How many resets have occurred: the counter that `Config.unwrittenWord` is applied to. -/
  epoch : Nat
  deriving DecidableEq, Repr

/-- The words of `x` after the `epoch`-th reset, unwritten: each a free value (R29, U1). -/
@[irreducible] def unwrittenVector (epoch : Nat) : StateVector :=
  Vector.ofFn fun i => Config.unwrittenWord epoch i.val

/-- The sentinel 625 as a cursor: unseeded (R22, R23). -/
def Cursor.unseeded : Cursor := ⟨625, by decide⟩

/-- The block after the `epoch`-th reset: `cur` = 625 and every word of `x` unwritten (R29, R170). -/
def Block.afterReset (epoch : Nat) : Block :=
  { x := unwrittenVector epoch, cur := Cursor.unseeded }

/-- The state after the `epoch`-th reset with nothing issued since: a run starts here (R173). -/
def State.afterReset (epoch : Nat) : State :=
  { block := Block.afterReset epoch, inbox := [], accepted := [], responses := [], epoch := epoch }

/-- The machine right after reset (R29, R170). -/
def State.reset : State := State.afterReset 0

end Sys2Proof.Machine
end

