-- ==== Sys2Proof/Machine/Flags.lean ====
section
/-! DEFINITION. The block has no flags, condition codes or status register (spec/10_state.md R26). The one outcome
of a command besides its data is its response's status; its codes and the 66-bit response word stand here
(spec/30_encoding.md R63, R64). -/

namespace Sys2Proof.Machine

/-- The status code of a non-OK outcome (spec/60_exceptions.md R151, R152). -/
def Fault.statusCode : Fault → BitVec 2
  | .unseeded => 0b01#2
  | .illegal => 0b10#2

/-- The response's status field: 0b00 OK, 0b01 UNSEEDED, 0b10 ILLEGAL (R63). -/
def Response.status : Response → BitVec 2
  | .ok _ => 0b00#2
  | .raised f => f.statusCode

/-- The response's data field: "When status ≠ OK, `data` = 0" (R64). -/
def Response.data : Response → DataWord
  | .ok d => d
  | .raised _ => 0#64

/-- The 66-bit response word: `status` in bits 65:64, `data` in bits 63:0 (R63). -/
def Response.word (r : Response) : ResponseWord := r.status ++ r.data

end Sys2Proof.Machine
end

