-- ==== Sys2Proof/Machine/Ops.lean ====
section
/-! DEFINITION. The named operations on the state that the commands share: answering, raising a non-OK status,
accepting a command word, and reset. The block has no memory that a command can reach (spec/20_memory.md R40), so
there are no memory operations. -/

namespace Sys2Proof.Machine

/-- Whether a `seed` has run since reset: the block is unseeded exactly when `cur` = 625 (spec/10_state.md R23). -/
def Block.seeded (b : Block) : Bool := b.cur != Cursor.unseeded

/-- `respond`: the command's one response leaves the block, after all earlier ones (spec/30_encoding.md R63). -/
def respond (r : Response) (s : State) : State :=
  { s with responses := s.responses ++ [r] }

/-- The command completes with status OK: its whole effect on the block and its data (spec/60_exceptions.md R156). -/
def complete (b : Block) (data : DataWord) (s : State) : State :=
  respond (.ok data) { s with block := b }

/-- `raise`: THE ONE WAY A COMMAND FAILS. It completes with a non-OK status, no state is written, the data are 0 and
nothing is recorded in the block (spec/00_scope.md R9, spec/60_exceptions.md R151, R152, R156). No state is saved, no
mode changes and control goes nowhere, so there is no return from it either: the next command executes like any
other (R157). -/
def raise (f : Fault) (s : State) : State := respond (.raised f) s

/-- The block accepts a command word, after all earlier ones (spec/20_memory.md R47). -/
def accept (w : CommandWord) (s : State) : State :=
  { s with accepted := s.accepted ++ [w] }

/-- Reset: `cur` = 625, every word of `x` unwritten with values of its own, and a new run begins, with no response
to anything cut short (spec/70_reset_and_hazards.md R170, R173). What the host will issue next is not the block's. -/
def takeReset (s : State) : State :=
  { block := Block.afterReset (s.epoch + 1), inbox := s.inbox, accepted := [], responses := [],
    epoch := s.epoch + 1 }

end Sys2Proof.Machine
end

