-- ==== Sys2Proof/Machine/SeedExpansion.lean ====
section
/-! DEFINITION. The seed expansion unit and the command `seed` (spec/40_seed_expansion.md R80, R81). -/

namespace Sys2Proof.Machine

/-- The recurrence's right side: `(1812433253 * t + i) mod 2^32` with `t = p ^ (p >> 30)`, for the word `p` before
word `i` (R80, R81). -/
def seedNext (p : Word) (i : Nat) : Word :=
  seedMultiplier * (p ^^^ (p >>> 30)) + BitVec.ofNat 32 i

/-- One pass of the loop of R80, at `i = k + 1`: it writes `x[k + 1]` from `x[k]`. -/
def seedStep (x : StateVector) (k : Nat) (h : k + 1 < 624) : StateVector :=
  x.set (k + 1) (seedNext x[k] (k + 1))

/-- The first `k` passes of the loop of R80, `i = 1, …, k` in order. -/
def seedLoop (x : StateVector) : (k : Nat) → k < 624 → StateVector
  | 0, _ => x
  | k + 1, h => seedStep (seedLoop x k (Nat.lt_of_succ_lt h)) k h

/-- The state vector `seed v` leaves, written over the vector `x`: `x[0] <- v`, then the loop for `i` in 1..624
(R80). -/
@[irreducible] def seedVector (v : Word) (x : StateVector) : StateVector :=
  seedLoop (x.set 0 v) 623 (by decide)

/-- `cur` = 624, which `seed` sets: the next draw twists first (R80). -/
def Cursor.twistOwed : Cursor := ⟨624, by decide⟩

/-- The block after `seed v` (R80). -/
def seedBlock (v : Word) (b : Block) : Block :=
  { x := seedVector v b.x, cur := Cursor.twistOwed }

/-- `seed <v>` (R80): legal in every state, always OK, data 0. -/
def execSeed (v : Word) (s : State) : Host.Outcome State Fault Refusal :=
  .next (complete (seedBlock v s.block) 0#64 s)

end Sys2Proof.Machine
end

