-- ==== Sys2Proof/Machine/Tempering.lean ====
section
/-! DEFINITION. The tempering pipeline and its inverse (spec/43_tempering.md R115, R116, R118). Tempering writes no
state (R117). -/

namespace Sys2Proof.Machine

/-- Stage 1: `y ^ (y >> 11)` (R115). -/
def temper1 (y : Word) : Word := y ^^^ (y >>> 11)

/-- Stage 2: `y ^ ((y << 7) & TEMPER_B)` (R115, R116). -/
def temper2 (y : Word) : Word := y ^^^ ((y <<< 7) &&& temperB)

/-- Stage 3: `y ^ ((y << 15) & TEMPER_C)` (R115, R116). -/
def temper3 (y : Word) : Word := y ^^^ ((y <<< 15) &&& temperC)

/-- Stage 4: `y ^ (y >> 18)` (R115). -/
def temper4 (y : Word) : Word := y ^^^ (y >>> 18)

/-- `Temper(raw)`: each stage reads what the stage before it produced (R115, R116). -/
def temper (raw : Word) : Word := temper4 (temper3 (temper2 (temper1 raw)))

/-- `repeat n times: t <- f t`, from `t` (R118). -/
def repeated (f : Word → Word) : Nat → Word → Word
  | 0, t => t
  | n + 1, t => repeated f n (f t)

/-- The inverse of stage 2: five passes of `t <- y2 ^ ((t << 7) & TEMPER_B)` from `y2` (R118). -/
def untemper2 (y2 : Word) : Word := repeated (fun t => y2 ^^^ ((t <<< 7) &&& temperB)) 5 y2

/-- The inverse of stage 1: three passes of `t <- y1 ^ (t >> 11)` from `y1` (R118). -/
def untemper1 (y1 : Word) : Word := repeated (fun t => y1 ^^^ (t >>> 11)) 3 y1

/-- `Untemper(y4)` (R118), "for building test inputs". No step runs it. -/
def untemper (y4 : Word) : Word := untemper1 (untemper2 (temper3 (temper4 y4)))

end Sys2Proof.Machine
end

