-- ==== Sys2Proof/Machine/TwistEngine.lean ====
section
/-! DEFINITION. The state-regeneration engine (spec/42_twist_engine.md R100 to R104). The twist is no command: a
draw runs it (spec/41_next_u32.md R91). -/

namespace Sys2Proof.Machine

/-- `y = (x[i] & 0x80000000) | (x[j] & 0x7FFFFFFF)` (R100). -/
def twistY (xi xj : Word) : Word := (xi &&& upperMask) ||| (xj &&& lowerMask)

/-- `x[k] ^ (y >> 1) ^ MAG01[y & 1]`, the word a twist step writes, from the words it reads (R100, R101). -/
def twistWord (xi xj xk : Word) : Word :=
  xk ^^^ (twistY xi xj >>> 1) ^^^ mag01 ((twistY xi xj).extractLsb' 0 1)

/-- Step `i` of the twist, in place: every read sees all writes of steps `0..i-1` (R100, R103). -/
def twistStep (x : StateVector) (i : Nat) (h : i < 624) : StateVector :=
  x.set i (twistWord x[i] (x[nextIndex i]'(nextIndex_lt i)) (x[feedIndex i]'(feedIndex_lt i)))

/-- Steps `0, 1, …, k-1`, strictly in this order (R100). -/
def twistLoop (x : StateVector) : (k : Nat) → k ≤ 624 → StateVector
  | 0, _ => x
  | k + 1, h => twistStep (twistLoop x k (Nat.le_of_succ_le h)) k h

/-- `Twist()`: all 624 steps (R100). It does not write `cur`. -/
@[irreducible] def twist (x : StateVector) : StateVector := twistLoop x 624 (Nat.le_refl _)

/-- A step of the first segment of R104: `x[i] <- x[i+397] ^ …` with `j = i + 1`, for `i` in 0..227. -/
def segment1Step (x : StateVector) (i : Nat) (h : i < 227) : StateVector :=
  x.set i (twistWord x[i] x[i + 1] x[i + 397])

/-- The first segment's steps `0, …, k-1` (R104). -/
def segment1 (x : StateVector) : (k : Nat) → k ≤ 227 → StateVector
  | 0, _ => x
  | k + 1, h => segment1Step (segment1 x k (Nat.le_of_succ_le h)) k h

/-- A step of the second segment of R104: `x[i] <- x[i-227] ^ …` with `j = i + 1`, for `i = 227 + d` in 227..623. -/
def segment2Step (x : StateVector) (d : Nat) (h : d < 396) : StateVector :=
  x.set (227 + d) (twistWord x[227 + d] x[227 + d + 1] x[d])

/-- The second segment's steps `227, …, 227 + k - 1` (R104). -/
def segment2 (x : StateVector) : (k : Nat) → k ≤ 396 → StateVector
  | 0, _ => x
  | k + 1, h => segment2Step (segment2 x k (Nat.le_of_succ_le h)) k h

/-- The third segment of R104: `x[623] <- x[396] ^ …` with `j = 0`. -/
def segment3 (x : StateVector) : StateVector :=
  x.set 623 (twistWord x[623] x[0] x[396])

/-- The three-segment form of the twist (R104), said there to be equivalent to R100. No step runs it. -/
@[irreducible] def threeSegmentTwist (x : StateVector) : StateVector :=
  segment3 (segment2 (segment1 x 227 (Nat.le_refl _)) 396 (Nat.le_refl _))

end Sys2Proof.Machine
end

