-- ==== Sys2Proof/Machine/Draw.lean ====
section
/-! DEFINITION. The draw primitive, what the three draw commands share, and the command `next_u32`
(spec/41_next_u32.md R90 to R93). -/

namespace Sys2Proof.Machine

/-- `raw <- x[c]; cur <- c + 1`, for `c` below 624 (R91). -/
def takeWord (x : StateVector) (c : Nat) (h : c < 624) : Word × Block :=
  (x[c], { x := x, cur := ⟨c + 1, by omega⟩ })

/-- `DrawRaw()`: where `cur` ≥ 624 the twist runs and `cur` becomes 0; then the word at the cursor is read and the
cursor advances (R91). Only the twist writes `x`. -/
def drawRaw (b : Block) : Word × Block :=
  if h : b.cur.val < 624 then takeWord b.x b.cur.val h
  else takeWord (twist b.x) 0 (by decide)

/-- What the three draws share: UNSEEDED while `cur` = 625 (R66, R151), and otherwise one draw, whose tempered word
`form` turns into the response's data (R90, R93). The tempered word is not stored back (R117). -/
def draw (form : Word → DataWord) (s : State) : State :=
  if s.block.seeded then
    complete (drawRaw s.block).2 (form (temper (drawRaw s.block).1)) s
  else raise .unseeded s

/-- `next_u32` (R90). -/
def execNextU32 (s : State) : Host.Outcome State Fault Refusal := .next (draw zext64 s)

end Sys2Proof.Machine
end

