-- ==== Sys2Proof/Machine/Rounding.lean ====
section
/-! DEFINITION. Rounding to 53 significant bits and the two output scalings in integer arithmetic
(spec/00_scope.md R10, spec/44_derived_outputs.md R127, R136). -/

namespace Sys2Proof.Machine

/-- The bit length of `n`: 0 for 0 (R10). -/
def bitLength (n : Nat) : Nat := if n = 0 then 0 else n.log2 + 1

/-- `RNE53(Q)`: the integer nearest to `Q` with at most 53 significant bits, a tie going to the neighbour whose
significand is even (R10). -/
def rne53 (Q : Nat) : Nat :=
  if Q < 2 ^ 53 then Q
  else
    let s := bitLength Q - 53
    let q := Q >>> s
    let rem := Q % 2 ^ s
    let half := 2 ^ (s - 1)
    let q' := if half < rem ∨ (rem = half ∧ q % 2 = 1) then q + 1 else q
    q' * 2 ^ s

/-- The 64-bit concatenation `{u, u}` = `u × (2^32 + 1)` (R127). -/
def doubled (u : Word) : BitVec 64 := u ++ u

/-- `F64Bits(u)`: the binary64 encoding of `fl(u × RECIP)` (R125, R127). -/
def f64Bits (u : Word) : DataWord :=
  if u = 0#32 then 0x0000000000000000#64
  else
    let R := rne53 (doubled u).toNat
    let p := bitLength R
    let sig := if p ≤ 53 then R <<< (53 - p) else R >>> (p - 53)
    let e := p + 958
    0b0#1 ++ BitVec.ofNat 11 e ++ BitVec.ofNat 52 (sig - 2 ^ 52)

/-- `r = RNE53(u × m) >> 32`, the bounded integer (R135, R136). -/
def bounded (u m : Word) : Word := BitVec.ofNat 32 (rne53 (u.toNat * m.toNat) >>> 32)

end Sys2Proof.Machine
end

