-- ==== Sys2Proof/Machine/DerivedOutputs.lean ====
section
/-! DEFINITION. The output formatting stage's commands `next_f64` and `next_bounded_u32`
(spec/44_derived_outputs.md R125, R135). -/

namespace Sys2Proof.Machine

/-- `next_f64` (R125): the tempered word scaled to a binary64 value. -/
def execNextF64 (s : State) : Host.Outcome State Fault Refusal := .next (draw f64Bits s)

/-- `next_bounded_u32 <m>` (R135): the tempered word scaled to an integer; one draw whatever `m` is (R139). -/
def execNextBoundedU32 (m : Word) (s : State) : Host.Outcome State Fault Refusal :=
  .next (draw (fun u => zext64 (bounded u m)) s)

end Sys2Proof.Machine
end

