-- ==== Sys2Proof/Machine/Dispatch.lean ====
section
/-! DEFINITION. One arm per command: `exec` dispatches a decoded command to its meaning (spec/30_encoding.md R66). -/

namespace Sys2Proof.Machine

def exec (i : Instr) (s : State) : Host.Outcome State Fault Refusal :=
  match i with
  | .seed value => Sys2Proof.Machine.execSeed value s
  | .nextU32 => Sys2Proof.Machine.execNextU32 s
  | .nextF64 => Sys2Proof.Machine.execNextF64 s
  | .nextBoundedU32 maxValue => Sys2Proof.Machine.execNextBoundedU32 maxValue s

end Sys2Proof.Machine
end

