-- ==== Sys2Proof/Machine/Step.lean ====
section
/-! DEFINITION. One step: the block takes the next event of its host port and carries it out whole
(spec/20_memory.md R44, R47). -/

namespace Sys2Proof.Machine

/-- `Exec(cmd)` (spec/30_encoding.md R66): the word is accepted and decoded; a reserved encoding raises ILLEGAL
before any other check (spec/60_exceptions.md R154), a legal command runs. -/
def runCommand (w : CommandWord) (s : State) : Host.Outcome State Fault Refusal :=
  match decode w with
  | .ok i => exec i (accept w s)
  | .error .reservedEncoding => .next (raise .illegal (accept w s))

/-- One event of the host port. A command cut by reset gives no response and leaves the reset state
(spec/70_reset_and_hazards.md R170, D25); power loss is a reset (spec/60_exceptions.md R163). -/
def handleEvent (e : HostEvent) (s : State) : Host.Outcome State Fault Refusal :=
  match e with
  | .command w => runCommand w s
  | .reset => .next (takeReset s)
  | .commandCutByReset _ => .next (takeReset s)
  | .powerLoss => .next (takeReset s)

/-- One step. With nothing issued the block is idle and holds its state (R163). -/
def step (s : State) : Host.Outcome State Fault Refusal :=
  match s.inbox with
  | [] => .next s
  | e :: rest => handleEvent e { s with inbox := rest }

/-- Command words run in order from a state, each whole before the next (R47): `none` where one of them stops the
machine. -/
def runCommands : List CommandWord → State → Option State
  | [], s => some s
  | w :: ws, s =>
    match runCommand w s with
    | .next t => runCommands ws t
    | .fault _ => none
    | .refused _ => none

/-- The state with the command word of number `w` (the bits from `nbits` up being 0) as the next event of the host
port, ahead of whatever the host was to issue (log 5). -/
def State.withFetchWord (s : State) (nbits w : Nat) : State :=
  { s with inbox := .command (BitVec.ofNat 34 (w % 2 ^ nbits)) :: s.inbox }

end Sys2Proof.Machine
end

