-- ==== Sys2Proof/Machine/Assembler.lean ====
section
/-! DEFINITION. The block's assembly syntax and the host notation of its programs, from text to the events of the
host port (spec/30_encoding.md R68, R69). The host runs it, not the block. -/

namespace Sys2Proof.Machine

/-- Why a line of host text is no program line. "A value outside that range is an assembler error, not an
encoding" (R68). -/
inductive AsmError where
  | unknownLine
  | badNumber
  | operandMissing
  | operandNotTaken
  | operandTooLarge
  | wordTooLarge
  | repNotClosed
  | endrNotOpened
  deriving DecidableEq, Repr

/-- The command an assembly line spells: its operand is there exactly where its mnemonic takes one and fits 32 bits
(R68). -/
def assembleOp (m : Mnemonic) (operand : Option Nat) : Except AsmError Instr :=
  match m, operand with
  | .seed, none => .error .operandMissing
  | .seed, some n => if n < 2 ^ 32 then .ok (.seed (BitVec.ofNat 32 n)) else .error .operandTooLarge
  | .nextU32, none => .ok .nextU32
  | .nextU32, some _ => .error .operandNotTaken
  | .nextF64, none => .ok .nextF64
  | .nextF64, some _ => .error .operandNotTaken
  | .nextBoundedU32, none => .error .operandMissing
  | .nextBoundedU32, some n =>
    if n < 2 ^ 32 then .ok (.nextBoundedU32 (BitVec.ofNat 32 n)) else .error .operandTooLarge

/-- A `.cmd` word "as it stands" (R69); a command word is 34 bits (R60). -/
def assembleCmd (n : Nat) : Except AsmError HostEvent :=
  match toCommandWord n with
  | some w => .ok (.command w)
  | none => .error .wordTooLarge

/-- `n` copies of a block of events (R69). -/
def copies (n : Nat) (events : List HostEvent) : List HostEvent := (List.replicate n events).flatten

/-- The events of the lines, given the open repetitions (their counts, and the events before each) and the events
since the innermost one was opened. -/
def assembleFrom : List HostLine → List (Nat × List HostEvent) → List HostEvent →
    Except AsmError (List HostEvent)
  | [], [], events => .ok events
  | [], _ :: _, _ => .error .repNotClosed
  | .op m operand :: rest, opened, events =>
    match assembleOp m operand with
    | .ok i => assembleFrom rest opened (events ++ [.command (encode i)])
    | .error e => .error e
  | .reset :: rest, opened, events => assembleFrom rest opened (events ++ [.reset])
  | .cmd n :: rest, opened, events =>
    match assembleCmd n with
    | .ok e => assembleFrom rest opened (events ++ [e])
    | .error e => .error e
  | .rep n :: rest, opened, events => assembleFrom rest ((n, events) :: opened) []
  | .endr :: rest, (n, before) :: opened, events => assembleFrom rest opened (before ++ copies n events)
  | .endr :: _, [], _ => .error .endrNotOpened

/-- A host program's lines as the events of the host port (R68, R69). -/
def assemble (lines : List HostLine) : Except AsmError (List HostEvent) := assembleFrom lines [] []

/-- The line that spells a command. -/
def Instr.toLine : Instr → HostLine
  | .seed v => .op .seed (some v.toNat)
  | .nextU32 => .op .nextU32 none
  | .nextF64 => .op .nextF64 none
  | .nextBoundedU32 m => .op .nextBoundedU32 (some m.toNat)

/-- "Construction" with an explicit seed: `reset`, then `seed s` (R69). Default construction is this with the
host's time-derived value as `s` (R69, spec/70_reset_and_hazards.md R172). -/
def construction (s : Word) : List HostLine := [.reset, Instr.toLine (.seed s)]

/-- The value of a digit in the given base, if it is one. -/
def digitValue (base : Nat) (c : Char) : Option Nat :=
  let n := c.toNat
  let d := if 48 ≤ n ∧ n ≤ 57 then n - 48 else if 97 ≤ n ∧ n ≤ 102 then n - 87
    else if 65 ≤ n ∧ n ≤ 70 then n - 55 else 16
  if d < base then some d else none

/-- The number the digits spell, most significant first, after the digits worth `acc`. -/
def readDigits (base : Nat) : List Char → Nat → Option Nat
  | [], acc => some acc
  | c :: cs, acc =>
    match digitValue base c with
    | some d => readDigits base cs (acc * base + d)
    | none => none

/-- A `0x`-prefixed hexadecimal integer (R68). -/
def readHex : List Char → Option Nat
  | '0' :: 'x' :: c :: cs => readDigits 16 (c :: cs) 0
  | _ => none

/-- "a decimal integer or a `0x`-prefixed hexadecimal integer" (R68). -/
def readNumber (cs : List Char) : Option Nat :=
  match readHex cs with
  | some n => some n
  | none =>
    match cs with
    | [] => none
    | c :: rest => readDigits 10 (c :: rest) 0

/-- The line without its comment: "A `;` starts a comment that runs to the end of the line" (R68). -/
def uncomment : List Char → List Char
  | [] => []
  | c :: cs => if c = ';' then [] else c :: uncomment cs

/-- The words of a line, blanks between them. -/
def tokens : List Char → List Char → List (List Char)
  | [], [] => []
  | [], t => [t.reverse]
  | c :: cs, t =>
    if c = ' ' ∨ c = '\t' ∨ c = '\r' then
      match t with
      | [] => tokens cs []
      | _ :: _ => t.reverse :: tokens cs []
    else tokens cs (c :: t)

/-- The lines of a text. -/
def splitLines : List Char → List Char → List (List Char)
  | [], t => [t.reverse]
  | c :: cs, t => if c = '\n' then t.reverse :: splitLines cs [] else splitLines cs (c :: t)

/-- The mnemonic a word spells (R68). -/
def readMnemonic (t : List Char) : Option Mnemonic :=
  if t = "seed".toList then some .seed
  else if t = "next_u32".toList then some .nextU32
  else if t = "next_f64".toList then some .nextF64
  else if t = "next_bounded_u32".toList then some .nextBoundedU32
  else none

/-- One line of host text; `none` for a line with nothing but blanks and a comment (R68, R69). -/
def readLine (cs : List Char) : Except AsmError (Option HostLine) :=
  match tokens (uncomment cs) [] with
  | [] => .ok none
  | [t] =>
    if t = "reset".toList then .ok (some .reset)
    else if t = ".endr".toList then .ok (some .endr)
    else
      match readMnemonic t with
      | some m => .ok (some (.op m none))
      | none => .error .unknownLine
  | [t, a] =>
    if t = ".cmd".toList then
      match readHex a with
      | some n => .ok (some (.cmd n))
      | none => .error .badNumber
    else if t = ".rep".toList then
      match readNumber a with
      | some n => .ok (some (.rep n))
      | none => .error .badNumber
    else
      match readMnemonic t with
      | none => .error .unknownLine
      | some m =>
        match readNumber a with
        | some n => .ok (some (.op m (some n)))
        | none => .error .badNumber
  | _ :: _ :: _ :: _ => .error .unknownLine

/-- The program lines of the lines of a text, in order. -/
def readLines : List (List Char) → Except AsmError (List HostLine)
  | [] => .ok []
  | cs :: rest =>
    match readLine cs, readLines rest with
    | .error e, _ => .error e
    | .ok _, .error e => .error e
    | .ok none, .ok ls => .ok ls
    | .ok (some l), .ok ls => .ok (l :: ls)

/-- A host program in text as the events of the host port (R68, R69). -/
def assembleText (text : List Char) : Except AsmError (List HostEvent) :=
  match readLines (splitLines text []) with
  | .ok ls => assemble ls
  | .error e => .error e

end Sys2Proof.Machine
end

