-- ==== Sys2Proof/Machine/Binary64.lean ====
section
/-! DEFINITION. What a binary64 encoding stands for, exactly, and what the nearest one to a number is: the meaning of
`fl` (spec/00_scope.md R9, spec/92_eei_decisions.md D7), against which the integer forms of Rounding.lean are claimed
right. No step runs it. -/

namespace Sys2Proof.Machine.Binary64

/-- The biased exponent, bits 62:52 (spec/30_encoding.md R64). -/
def exponent (b : DataWord) : Nat := (b.extractLsb' 52 11).toNat

/-- The fraction, bits 51:0 (R64). -/
def fraction (b : DataWord) : Nat := (b.extractLsb' 0 52).toNat

/-- Neither infinite nor NaN (the IEEE 754 binary64 format, D7). -/
def finite (b : DataWord) : Bool := exponent b != 2047

/-- The magnitude of a finite encoding (the IEEE 754 binary64 format, D7). -/
def magnitude (b : DataWord) : ℚ :=
  if exponent b = 0 then (fraction b : ℚ) * (2 : ℚ) ^ (-1074 : ℤ)
  else ((2 ^ 52 + fraction b : Nat) : ℚ) * (2 : ℚ) ^ ((exponent b : ℤ) - 1075)

/-- The number a finite encoding stands for; bit 63 is the sign (R64, D7). -/
def value (b : DataWord) : ℚ := if b.getLsbD 63 then -magnitude b else magnitude b

/-- `b` is `fl(e)`: finite, no finite encoding is nearer to `e`, and where another number is as near the last bit of
`b` is 0, which is the even neighbour (R9, D7). -/
def IsNearest (e : ℚ) (b : DataWord) : Prop :=
  finite b = true ∧ ∀ c : DataWord, finite c = true →
    |value b - e| ≤ |value c - e| ∧
    (|value b - e| = |value c - e| → value c = value b ∨ fraction b % 2 = 0)

/-- `RECIP` = `fl(1.0 / 4294967295.0)`, encoding 0x3DF0000000100000 (spec/44_derived_outputs.md R126). -/
def recip : DataWord := 0x3DF0000000100000#64

end Sys2Proof.Machine.Binary64
end

