-- ==== Sys2Proof/Machine/HostBus.lean ====
section
/-! DEFINITION. A host bus narrower than a command or response word: it carries the word's bytes in some lane order
and must deliver the word intact (spec/20_memory.md R42, D14). The order is the open parameter `HOST_LANE_ORDER` of
Config.lean; no step reads it. -/

namespace Sys2Proof.Machine

/-- Byte lane `i` of a word: bits `8i + 7 .. 8i`. -/
def byteLane {b : Nat} (w : BitVec b) (i : Nat) : BitVec 8 := w.extractLsb' (8 * i) 8

/-- The bytes of a word as the bus carries them: at time `t` the lane `order t`. -/
def carry {b n : Nat} (order : Equiv.Perm (Fin n)) (w : BitVec b) : Vector (BitVec 8) n :=
  Vector.ofFn fun t => byteLane w (order t).val

/-- The number whose byte lanes `0, …, k-1` are given. -/
def lanesValue (lane : Nat → BitVec 8) : Nat → Nat
  | 0 => 0
  | k + 1 => lanesValue lane k + (lane k).toNat * 256 ^ k

/-- The word that arrives: each byte goes back to the lane it left. -/
def gather {n : Nat} (b : Nat) (order : Equiv.Perm (Fin n)) (bytes : Vector (BitVec 8) n) : BitVec b :=
  BitVec.ofNat b
    (lanesValue (fun i => if h : i < n then bytes[(order.symm ⟨i, h⟩).val] else 0#8) n)

/-- A command word over the host's bus, delivered (R42). -/
def deliverCommand (w : CommandWord) : CommandWord :=
  gather 34 Config.hostLaneOrder (carry Config.hostLaneOrder w)

/-- A response word over the host's bus, delivered (R42). -/
def deliverResponse (w : ResponseWord) : ResponseWord :=
  gather 66 Config.hostResponseLaneOrder (carry Config.hostResponseLaneOrder w)

end Sys2Proof.Machine
end

