-- ==== Sys2Proof/Machine/Sequence.lean ====
section
/-! DEFINITION. The forms in which the spec speaks of a whole output stream without running the machine: the words
of `SeedVec(s)` (spec/40_seed_expansion.md R82), the sequence form `X` (spec/42_twist_engine.md R105) and the state as
a function of the seed and the draw count (spec/10_state.md R31). No step runs them. -/

namespace Sys2Proof.Machine

/-- Word `i` of `SeedVec(v)`, from the recurrence of R80 alone, with no state vector. -/
def seedWord (v : Word) : Nat → Word
  | 0 => v
  | i + 1 => seedNext (seedWord v i) (i + 1)

/-- `SeedVec(v)`: the 624 words that `seed v` leaves, a function of `v` alone (R82). -/
@[irreducible] def seedVec (v : Word) : StateVector := Vector.ofFn fun i => seedWord v i.val

/-- From `X[k..k+623]` to `X[k+1..k+624]`: drop the first word, append `X[k+397] ^ (Y[k] >> 1) ^ MAG01[Y[k] & 1]`
(R105). -/
@[irreducible] def slideWindow (w : StateVector) : StateVector :=
  Vector.ofFn fun i => if h : i.val + 1 < 624 then w[i.val + 1] else twistWord w[0] w[1] w[twistOffset]

/-- The window `X[k..k+623]` of the sequence of seed `v` (R105). -/
def window (v : Word) : Nat → StateVector
  | 0 => seedVec v
  | k + 1 => slideWindow (window v k)

/-- `X[k]` of the sequence of seed `v` (R105). -/
def sequenceWord (v : Word) (k : Nat) : Word := (window v k)[0]

/-- The state vector after `t` twists of `x`. -/
def twists : Nat → StateVector → StateVector
  | 0, x => x
  | t + 1, x => twist (twists t x)

/-- The cursor after `seed` and `k` successful draws: 624 for k = 0, else `((k - 1) mod 624) + 1` (R31). -/
def cursorAfterDraws (k : Nat) : Nat := if k = 0 then 624 else (k - 1) % 624 + 1

/-- How many twists the first `k` draws after a `seed` run: `ceil(k / 624)` (R31). -/
def twistsAfterDraws (k : Nat) : Nat := (k + 623) / 624

end Sys2Proof.Machine
end

