-- ==== Sys2Proof/Safety.lean ====
section
/-! DEFINITION. What counts as a safe run, in the terms claims use. The spec treats the statuses UNSEEDED and ILLEGAL
as faults of a model (spec/60_exceptions.md R151, R152; U2, U3 of spec/93_implementation_defined.md): here they are
the recorded reasons of a run's responses, and a safe run has none. -/

namespace Sys2Proof.Machine

/-- The fault a response records, if it does (R151, R152). -/
def Response.fault : Response → Option Fault
  | .ok _ => none
  | .raised f => some f

/-- The faults recorded since the last reset, oldest first. -/
def State.faults (s : State) : List Fault := s.responses.filterMap Response.fault

/-- No command since the last reset was answered with a non-OK status. -/
def State.safe (s : State) : Bool := s.faults.isEmpty

/-- The observation of a run: the responses paired with their commands in order (spec/70_reset_and_hazards.md R173). -/
def State.observation (s : State) : List (CommandWord × Response) := s.accepted.zip s.responses

/-- The host port's record a command leaves alone: what the host will do next, what was accepted before, and the
count of resets. These fields, and `responses`, are the model's own (log 2, log 3); the rules cited speak of the block
and of the response. -/
def HostPortKept (s t : State) : Prop :=
  t.inbox = s.inbox ∧ t.accepted = s.accepted ∧ t.epoch = s.epoch

/-- INVARIANT. "Every command produces exactly one 66-bit response word", in the order of the commands
(spec/30_encoding.md R63): the run has as many responses as accepted commands. -/
abbrev State.OneResponsePerCommand (s : State) : Prop := s.responses.length = s.accepted.length

/-- INVARIANT. The block is unseeded exactly while no `seed` has been accepted since the last reset
(spec/10_state.md R23, R24; `op` 0b00 is `seed`, spec/30_encoding.md R61). -/
abbrev State.UnseededUntilSeed (s : State) : Prop :=
  s.block.cur.val = 625 ↔ ∀ w ∈ s.accepted, opField w ≠ 0b00#2

/-- INVARIANT. "The state after the n-th command is the n-fold composition of the command rules applied to the reset
state" (spec/20_memory.md R47): running the accepted commands again from the last reset gives this very state. -/
def State.Replays (s : State) : Prop :=
  runCommands s.accepted { State.afterReset s.epoch with inbox := s.inbox } = some s

end Sys2Proof.Machine
end

