-- ==== Sys2Proof/Certificates/Slice0/Obligations.lean ====
section
/-! DEFINITION. The statements for the provers. Each docstring names the rules of spec/ it formalises. Numerals are the
spec's own, written out, where a rule gives them. -/

open Sys2Proof Sys2Proof.Machine

/-! ### Encoding -/

/-- R60, R61, R62, R66. A command word decodes to a command exactly when it is that command's encoding: no bit of an
encoding is dropped, and no word has two meanings. -/
def Obligations.DecodeIsInverseOfEncode : Prop :=
  ∀ (w : CommandWord) (i : Instr), decode w = .ok i ↔ w = encode i

/-- R65, R152. A word with `op` 0b01 or 0b10 and `arg` ≠ 0 is reserved: whatever the state, it is answered ILLEGAL and `x`
and `cur` are unchanged. Every other word is a legal command. That the answer is a NEXT state, where R152 says a model treats
it as a fault, is the model's choice (log 4), and so are the two records the answer appends to, `accepted` and
`responses` (log 2); `inbox` and `epoch` are unchanged. -/
def Obligations.ReservedWordsAreAnsweredIllegal : Prop :=
  ∀ w : CommandWord,
    ((w.extractLsb' 32 2 = 0b01#2 ∨ w.extractLsb' 32 2 = 0b10#2) ∧ w.extractLsb' 0 32 ≠ 0#32 →
      decode w = .error .reservedEncoding ∧
      ∀ s : State, runCommand w s =
        .next { s with accepted := s.accepted ++ [w], responses := s.responses ++ [.raised .illegal] }) ∧
    (¬((w.extractLsb' 32 2 = 0b01#2 ∨ w.extractLsb' 32 2 = 0b10#2) ∧ w.extractLsb' 0 32 ≠ 0#32) →
      ∃ i, decode w = .ok i)

/-- R67. The four rows of the field summary, with its match and mask values: a word decodes to a command of a row's
mnemonic exactly when it matches the row; no word matches two rows; a word that matches none is reserved and has `op`
0b01 or 0b10. -/
def Obligations.OpcodeRowsDecideTheDecoder : Prop :=
  ∀ w : CommandWord,
    ((∃ v, decode w = .ok (.seed v)) ↔ w &&& 0x300000000#34 = 0x000000000#34) ∧
    (decode w = .ok .nextU32 ↔ w &&& 0x3FFFFFFFF#34 = 0x100000000#34) ∧
    (decode w = .ok .nextF64 ↔ w &&& 0x3FFFFFFFF#34 = 0x200000000#34) ∧
    ((∃ m, decode w = .ok (.nextBoundedU32 m)) ↔ w &&& 0x300000000#34 = 0x300000000#34) ∧
    opcodeTable.Pairwise (fun a b => ¬(a.covers w = true ∧ b.covers w = true)) ∧
    ((∀ r ∈ opcodeTable, r.covers w = false) ↔ decode w = .error .reservedEncoding) ∧
    (decode w = .error .reservedEncoding → opField w = 0b01#2 ∨ opField w = 0b10#2)

/-- The words of the spec's programs and decode vectors (spec/95_test_vectors.md sections 2.8 and 4), one or more for
each command, written out in hexadecimal. -/
def Obligations.WrittenOutWordsDecode : Prop :=
  decode 0x000001571#34 = .ok (.seed 5489#32) ∧
  decode 0x0FFFFFFFF#34 = .ok (.seed 4294967295#32) ∧
  decode 0x100000000#34 = .ok .nextU32 ∧
  decode 0x200000000#34 = .ok .nextF64 ∧
  decode 0x3000014C9#34 = .ok (.nextBoundedU32 5321#32) ∧
  decode 0x3FFFFFFFF#34 = .ok (.nextBoundedU32 4294967295#32) ∧
  decode 0x100000001#34 = .error .reservedEncoding ∧
  decode 0x180000000#34 = .error .reservedEncoding ∧
  decode 0x2FFFFFFFF#34 = .error .reservedEncoding

/-- R47, R66. When the next event is a command word that decodes to `i`, a step takes it off the host port, records
it as accepted, and is `exec i` of that state. -/
def Obligations.StepRunsTheDecodedCommand : Prop :=
  ∀ (s : State) (w : CommandWord) (rest : List HostEvent) (i : Instr),
    s.inbox = .command w :: rest → decode w = .ok i →
      step s = exec i { s with inbox := rest, accepted := s.accepted ++ [w] }

/-- The model's own `withFetchWord` (log 5): the very next step runs the command whose word was placed. -/
def Obligations.FetchedWordIsTheNextCommand : Prop :=
  ∀ (s : State) (i : Instr),
    decodeTableWord 34 (encode i).toNat = some i ∧ decodeTableWord 40 (encode i).toNat = some i ∧
    step (s.withFetchWord 34 (encode i).toNat) = exec i (accept (encode i) s) ∧
    step (s.withFetchWord 40 (encode i).toNat) = exec i (accept (encode i) s)

/-! ### Seed expansion -/

/-- R80. `seed v` completes OK in every state and writes the whole block: the recurrence with the spec's numerals,
`cur` = 624, data 0; the host port's record is kept. With the rule's example, `seed 5489`. -/
def Obligations.SeedResultAndFrame : Prop :=
  ∀ (v : Word) (s : State), ∃ t, exec (.seed v) s = .next t ∧ HostPortKept s t ∧
    t.block.x[0] = v ∧
    (∀ (i : Nat) (h : i < 623), t.block.x[i + 1] =
      1812433253#32 * (t.block.x[i] ^^^ (t.block.x[i] >>> 30)) + BitVec.ofNat 32 (i + 1)) ∧
    t.block.cur.val = 624 ∧ t.responses = s.responses ++ [.ok 0#64] ∧
    (v = 5489#32 → t.block.x[1] = 0x4D98EE96#32 ∧ t.block.x[2] = 0xAF25F095#32 ∧
      t.block.x[623] = 0x04C46D8C#32)

/-- R82. The seeded vector is a function of the seed alone, distinct for distinct seeds, and never all zero. -/
def Obligations.SeededVectorIsAFunctionOfTheSeed : Prop :=
  (∀ (v : Word) (x : StateVector), seedVector v x = seedVec v) ∧
  (∀ v v' : Word, seedVec v = seedVec v' → v = v') ∧
  (∀ v : Word, seedVec v ≠ Vector.replicate 624 0#32) ∧
  (seedVec 0#32)[1] = 1#32

/-- R45. `seed` is idempotent in effect, and no draw on a seeded block is: it always moves the cursor. -/
def Obligations.SeedIsIdempotentAndDrawsAreNot : Prop :=
  (∀ (v : Word) (s t u : State), exec (.seed v) s = .next t → exec (.seed v) t = .next u → u.block = t.block) ∧
  (∀ (i : Instr) (s : State), i.isDraw = true → s.block.cur.val ≠ 625 →
    ∃ t, exec i s = .next t ∧ t.block.cur ≠ s.block.cur)

/-- R81. `p ^ (p >> 30)` changes only bits 1:0, by bits 31:30; the recurrence is modulo 2^32. -/
def Obligations.SeedRecurrenceWraps : Prop :=
  ∀ p : Word,
    (∀ b, 2 ≤ b → (p ^^^ (p >>> 30)).getLsbD b = p.getLsbD b) ∧
    (p ^^^ (p >>> 30)).getLsbD 1 = (p.getLsbD 1 ^^ p.getLsbD 31) ∧
    (p ^^^ (p >>> 30)).getLsbD 0 = (p.getLsbD 0 ^^ p.getLsbD 30) ∧
    ∀ i : Nat, i ≤ 623 → (seedNext p i).toNat = (1812433253 * (p ^^^ (p >>> 30)).toNat + i) % 2 ^ 32

/-! ### Twist -/

/-- R103, with the step of R100 in numerals. What each step of the twist reads: old words, but for the new `x[i-227]`
from `i` = 227 on and the new `x[0]` at `i` = 623. -/
def Obligations.TwistReadsOldAndNewWords : Prop :=
  ∀ (x : StateVector) (i : Nat) (h : i < 624),
    let xj := if h' : i < 623 then x[i + 1] else (twist x)[0]
    let xk := if h' : i < 227 then x[i + 397] else (twist x)[i - 227]'(by omega)
    let y := (x[i] &&& 0x80000000#32) ||| (xj &&& 0x7FFFFFFF#32)
    (twist x)[i] = xk ^^^ (y >>> 1) ^^^ (if y.getLsbD 0 then 0x9908B0DF#32 else 0x00000000#32)

/-- R101. The bits of `y` and of `y >> 1`, and the feedback word they select. -/
def Obligations.TwistFeedbackBits : Prop :=
  ∀ xi xj : Word,
    (twistY xi xj).getLsbD 0 = xj.getLsbD 0 ∧
    (twistY xi xj).getLsbD 31 = xi.getLsbD 31 ∧
    (twistY xi xj >>> 1).getLsbD 31 = false ∧
    (twistY xi xj >>> 1).getLsbD 30 = xi.getLsbD 31 ∧
    (∀ b, b ≤ 29 → (twistY xi xj >>> 1).getLsbD b = xj.getLsbD (b + 1)) ∧
    ∀ xk : Word, twistWord xi xj xk =
      xk ^^^ (twistY xi xj >>> 1) ^^^ (if xj.getLsbD 0 then 0x9908B0DF#32 else 0x00000000#32)

/-- R102. The twist's indices are in range, with the edge case at `i` = 623. -/
def Obligations.TwistIndexArithmetic : Prop :=
  (∀ i : Nat, i < 624 →
    nextIndex i < 624 ∧ feedIndex i < 624 ∧
    nextIndex i = (if i = 623 then 0 else i + 1) ∧
    feedIndex i = (if i ≤ 226 then i + 397 else i - 227)) ∧
  nextIndex 623 = 0 ∧ feedIndex 623 = 396

/-- R28. The entries of `MAG01`, and the AND-gate form of the selection. -/
def Obligations.Mag01Entries : Prop :=
  mag01 0#1 = 0x00000000#32 ∧ mag01 1#1 = 0x9908B0DF#32 ∧
  ∀ b : BitVec 1, mag01 b = 0x9908B0DF#32 &&& (0#32 - b.setWidth 32)

/-- R104. The three-segment form gives the same vector as the in-place loop, for every input. -/
def Obligations.ThreeSegmentFormEqualsTwist : Prop :=
  ∀ x : StateVector, threeSegmentTwist x = twist x

/-- R105, all but its last clause on draws (see `OutputStreamOfNextU32`): the sequence `X` begins with the seeded
vector and obeys the recurrence, and word `i` after `t` twists of the seeded vector is `X[624·t + i]`. -/
def Obligations.SequenceFormOfTheTwist : Prop :=
  ∀ v : Word,
    (∀ (i : Nat) (h : i < 624), sequenceWord v i = (seedVec v)[i]) ∧
    (∀ k : Nat,
      let y := (sequenceWord v k &&& 0x80000000#32) ||| (sequenceWord v (k + 1) &&& 0x7FFFFFFF#32)
      sequenceWord v (k + 624) =
        sequenceWord v (k + 397) ^^^ (y >>> 1) ^^^ (if y.getLsbD 0 then 0x9908B0DF#32 else 0x00000000#32)) ∧
    (∀ (t i : Nat) (h : i < 624), (twists t (seedVec v))[i] = sequenceWord v (624 * t + i))

/-- R106. Bits 30:0 of the word in `x[0]` before a twist never affect its result. -/
def Obligations.TwistIgnoresLowBitsOfFirstWord : Prop :=
  ∀ (x : StateVector) (w : Word), w.getLsbD 31 = x[0].getLsbD 31 → twist (x.set 0 w) = twist x

/-! ### Tempering -/

/-- R115. The four stages with the spec's numerals, and its worked examples. -/
def Obligations.TemperStagesAndExamples : Prop :=
  (∀ raw : Word,
    let y1 := raw ^^^ (raw >>> 11)
    let y2 := y1 ^^^ ((y1 <<< 7) &&& 0x9D2C5680#32)
    let y3 := y2 ^^^ ((y2 <<< 15) &&& 0xEFC60000#32)
    temper raw = y3 ^^^ (y3 >>> 18)) ∧
  temper 0#32 = 0#32 ∧ temper 0x12DD9BB3#32 = 0xFFFFFFFF#32 ∧ temper 0x12345678#32 = 0x2B7E4A2D#32

/-- R118. `Temper` is a bijection on 32-bit words, with the spec's inverse and its two example values. -/
def Obligations.TemperIsABijection : Prop :=
  (∀ y : Word, temper (untemper y) = y) ∧ (∀ raw : Word, untemper (temper raw) = raw) ∧
  untemper 0xFFFFFFFF#32 = 0x12DD9BB3#32 ∧ untemper 0#32 = 0#32

/-! ### Draws -/

/-- R90, R91. `next_u32` on a seeded block completes OK. Below 624 it reads the word at the cursor, advances, and leaves
`x`; at 624 it twists first, reads the new word 0 and leaves the cursor at 1. The data are the tempered word,
zero-extended. -/
def Obligations.NextU32ResultAndFrame : Prop :=
  ∀ s : State, s.block.cur.val ≤ 624 → ∃ t, exec .nextU32 s = .next t ∧ HostPortKept s t ∧
    (∀ h : s.block.cur.val < 624,
      t.block.x = s.block.x ∧ t.block.cur.val = s.block.cur.val + 1 ∧
      t.responses = s.responses ++ [.ok (0#32 ++ temper s.block.x[s.block.cur.val])]) ∧
    (s.block.cur.val = 624 →
      t.block.x = twist s.block.x ∧ t.block.cur.val = 1 ∧
      t.responses = s.responses ++ [.ok (0#32 ++ temper (twist s.block.x)[0])])

/-- R125, R91. `next_f64` on a seeded block completes OK: one draw as `next_u32` makes it, and the data are the
encoding `F64Bits` of the tempered word. -/
def Obligations.NextF64ResultAndFrame : Prop :=
  ∀ s : State, s.block.cur.val ≤ 624 → ∃ t, exec .nextF64 s = .next t ∧ HostPortKept s t ∧
    (∀ h : s.block.cur.val < 624,
      t.block.x = s.block.x ∧ t.block.cur.val = s.block.cur.val + 1 ∧
      t.responses = s.responses ++ [.ok (f64Bits (temper s.block.x[s.block.cur.val]))]) ∧
    (s.block.cur.val = 624 →
      t.block.x = twist s.block.x ∧ t.block.cur.val = 1 ∧
      t.responses = s.responses ++ [.ok (f64Bits (temper (twist s.block.x)[0]))])

/-- R135, R136, R91. `next_bounded_u32 m` on a seeded block completes OK for every `m`: one draw as `next_u32` makes it,
and the data are `RNE53(u × m) >> 32` of the tempered word `u`. -/
def Obligations.NextBoundedU32ResultAndFrame : Prop :=
  ∀ (m : Word) (s : State), s.block.cur.val ≤ 624 →
    ∃ t, exec (.nextBoundedU32 m) s = .next t ∧ HostPortKept s t ∧
    (∀ h : s.block.cur.val < 624,
      t.block.x = s.block.x ∧ t.block.cur.val = s.block.cur.val + 1 ∧
      t.responses = s.responses ++ [.ok (BitVec.ofNat 64
        (rne53 ((temper s.block.x[s.block.cur.val]).toNat * m.toNat) / 2 ^ 32))]) ∧
    (s.block.cur.val = 624 →
      t.block.x = twist s.block.x ∧ t.block.cur.val = 1 ∧
      t.responses = s.responses ++ [.ok (BitVec.ofNat 64
        (rne53 ((temper (twist s.block.x)[0]).toNat * m.toNat) / 2 ^ 32))])

/-- R151. A draw while `cur` = 625 writes nothing of the block, and its response word has status 0b01 and data 0;
`seed` never raises it. -/
def Obligations.UnseededDrawsAreTurnedAway : Prop :=
  (∀ (i : Instr) (s : State), i.isDraw = true → s.block.cur.val = 625 →
    ∃ t r, exec i s = .next t ∧ t.block = s.block ∧ HostPortKept s t ∧
      t.responses = s.responses ++ [r] ∧ r = .raised .unseeded ∧
      r.word = (0b01#2 ++ 0#64 : BitVec 66)) ∧
  (∀ (v : Word) (s t : State), exec (.seed v) s = .next t →
    t.responses = s.responses ++ [.ok 0#64])

/-- R93. On a seeded block the three draws leave the same block, and each moves the cursor one place of one shared
stream (the whole result of a draw is in `NextU32ResultAndFrame` and the two statements after it). On an unseeded block
none moves it; that such a draw answers a next state at all is the model's choice (log 4). -/
def Obligations.DrawsShareOneStream : Prop :=
  ∀ (i j : Instr) (s : State), i.isDraw = true → j.isDraw = true →
    ∃ t u, exec i s = .next t ∧ exec j s = .next u ∧ t.block = u.block ∧
      (s.block.cur.val ≤ 624 → t.block.cur.val = s.block.cur.val % 624 + 1) ∧
      (s.block.cur.val = 625 → t.block = s.block)

/-- R150. Every legal command issued to a seeded block completes with status OK. -/
def Obligations.LegalCommandsOnASeededBlockCompleteOk : Prop :=
  ∀ (w : CommandWord) (i : Instr) (s : State), decode w = .ok i → s.block.cur.val ≠ 625 →
    ∃ t d, runCommand w s = .next t ∧ t.responses = s.responses ++ [.ok d]

/-- R31, R92. After `seed v` and `k` draws of any kinds, from any state, the block is a function of `v` and `k`: the
cursor, and `ceil(k / 624)` twists of the seeded vector. -/
def Obligations.BlockAfterSeedAndDraws : Prop :=
  ∀ (v : Word) (ds : List Instr) (s : State), (∀ d ∈ ds, d.isDraw = true) →
    ∃ t, runCommands (encode (.seed v) :: ds.map encode) s = some t ∧
      t.block.cur.val = (if ds.length = 0 then 624 else (ds.length - 1) % 624 + 1) ∧
      t.block.x = twists ((ds.length + 623) / 624) (seedVec v)

/-- R94. After `seed v`, from any state, draw number `j + 1` by `next_u32` answers `Temper(X[624 + j])`, with no gap at a
twist. -/
def Obligations.OutputStreamOfNextU32 : Prop :=
  ∀ (v : Word) (k : Nat) (s : State),
    ∃ t, runCommands (encode (.seed v) :: List.replicate k (encode .nextU32)) s = some t ∧
      t.responses = s.responses ++ .ok 0#64 ::
        (List.range k).map (fun j => .ok (zext64 (temper (sequenceWord v (624 + j)))))

/-- R83. After `seed v` the results of later commands depend on `v` and on those commands alone, and on nothing before
the `seed`: two runs from any two states answer alike and end with equal blocks. The words are any words, reserved ones
too: that a run goes on after ILLEGAL is the model's choice (log 4). -/
def Obligations.ResultsAfterSeedForgetThePast : Prop :=
  ∀ (v : Word) (ws : List CommandWord) (s₁ s₂ : State),
    ∃ t₁ t₂ rs, runCommands (encode (.seed v) :: ws) s₁ = some t₁ ∧
      runCommands (encode (.seed v) :: ws) s₂ = some t₂ ∧
      t₁.responses = s₁.responses ++ rs ∧ t₂.responses = s₂.responses ++ rs ∧ t₁.block = t₂.block

/-- R21. A step that changes a word of `x` ran a `seed`, ran a draw that found `cur` = 624 (so the twist), or was a
reset. -/
def Obligations.OnlySeedTwistAndResetWriteX : Prop :=
  ∀ s t : State, step s = .next t → t.block.x ≠ s.block.x →
    ∃ e rest, s.inbox = e :: rest ∧
      ((∃ w v, e = .command w ∧ decode w = .ok (.seed v)) ∨
       (∃ w i, e = .command w ∧ decode w = .ok i ∧ i.isDraw = true ∧ s.block.cur.val = 624) ∨
       (∀ w, e ≠ .command w))

/-- R24. Only reset sets `cur` = 625, and after a `seed` the cursor stays within 0..624 until the next reset. -/
def Obligations.OnlyResetUnseeds : Prop :=
  ∀ s t : State, step s = .next t → s.block.cur.val ≤ 624 →
    t.block.cur.val ≤ 624 ∨
    (t.block.cur.val = 625 ∧ ∃ e rest, s.inbox = e :: rest ∧ ∀ w, e ≠ .command w)

/-! ### Rounding and the derived outputs -/

/-- R10. `RNE53(Q)` has at most 53 significant bits, no integer with at most 53 significant bits is nearer to `Q`, and
where another is as near the 53-bit significand is even. Below 2^53 it is `Q`. -/
def Obligations.RoundingIsToNearestEven : Prop :=
  ∀ Q : Nat, Q < 2 ^ 64 →
    (∃ q e : Nat, q < 2 ^ 53 ∧ rne53 Q = q * 2 ^ e) ∧
    (∀ q e : Nat, q < 2 ^ 53 →
      |(rne53 Q : ℤ) - Q| ≤ |((q * 2 ^ e : Nat) : ℤ) - Q| ∧
      (q * 2 ^ e ≠ rne53 Q → |(rne53 Q : ℤ) - Q| = |((q * 2 ^ e : Nat) : ℤ) - Q| →
        rne53 Q / 2 ^ (bitLength Q - 53) % 2 = 0)) ∧
    (Q < 2 ^ 53 → rne53 Q = Q)

/-- R126. `RECIP` is the binary64 value nearest to 1 / (2^32 - 1), and its value is 2^-32 × (1 + 2^-32). -/
def Obligations.RecipIsTheNearestReciprocal : Prop :=
  Binary64.recip = 0x3DF0000000100000#64 ∧
  Binary64.IsNearest (1 / (2 ^ 32 - 1 : ℚ)) Binary64.recip ∧
  Binary64.value Binary64.recip = (1 + 1 / 2 ^ 32 : ℚ) / 2 ^ 32

/-- R125. `F64Bits(u)`, the data of `next_f64`, is `fl(u × RECIP)`: the binary64 value nearest to the exact product, ties
to even. -/
def Obligations.F64BitsIsTheRoundedProduct : Prop :=
  ∀ u : Word, Binary64.IsNearest ((u.toNat : ℚ) * Binary64.value Binary64.recip) (f64Bits u)

/-- R127. The integer-only form: `u × (2^32 + 1)` is the concatenation of `u` with itself, and `F64Bits(u)` encodes
`RNE53` of it, scaled by 2^-64. -/
def Obligations.F64BitsEncodesTheRoundedConcatenation : Prop :=
  ∀ u : Word,
    (u ++ u : BitVec 64).toNat = u.toNat * (2 ^ 32 + 1) ∧
    Binary64.value (f64Bits u) = (rne53 (u.toNat * (2 ^ 32 + 1)) : ℚ) / 2 ^ 64

/-- R128. The range of `next_f64` is 0.0 to 1.0, both reached; the map is strictly increasing; no result is negative,
-0.0, subnormal, infinite or NaN. -/
def Obligations.F64RangeAndOrder : Prop :=
  (∀ u : Word,
    0 ≤ Binary64.value (f64Bits u) ∧ Binary64.value (f64Bits u) ≤ 1 ∧
    (Binary64.value (f64Bits u) = 0 ↔ u = 0#32) ∧
    (Binary64.value (f64Bits u) = 1 ↔ u = 0xFFFFFFFF#32) ∧
    (f64Bits u).getLsbD 63 = false ∧ Binary64.finite (f64Bits u) = true ∧
    (u ≠ 0#32 → Binary64.exponent (f64Bits u) ≠ 0)) ∧
  (∀ u v : Word, u.toNat < v.toNat →
    Binary64.value (f64Bits u) < Binary64.value (f64Bits v)) ∧
  f64Bits 0#32 = 0x0000000000000000#64 ∧ f64Bits 1#32 = 0x3DF0000000100000#64 ∧
  f64Bits 0xFFFFFFFE#32 = 0x3FEFFFFFFFE00000#64 ∧ f64Bits 0xFFFFFFFF#32 = 0x3FF0000000000000#64 ∧
  temper 0x12DD9BB3#32 = 0xFFFFFFFF#32

/-- R129's example: at u = 0x0FB5D240 the formula and a division differ in the last bit; the division's value is the
nearest to the exact quotient, and it is not what `next_f64` answers. -/
def Obligations.MultiplyingIsNotDividing : Prop :=
  f64Bits 0x0FB5D240#32 = 0x3FAF6BA4801F6BA4#64 ∧
  Binary64.IsNearest ((0x0FB5D240 : ℚ) / 4294967295) 0x3FAF6BA4801F6BA5#64 ∧
  Binary64.value 0x3FAF6BA4801F6BA5#64 ≠ Binary64.value (f64Bits 0x0FB5D240#32)

/-- R135, R136. The bounded integer is `floor(fl(u × fl(m / 2^32)))` in binary64, the inner scaling being exact. -/
def Obligations.BoundedIsTheFlooredProduct : Prop :=
  ∀ u m : Word, ∃ sc p : DataWord,
    Binary64.IsNearest ((m.toNat : ℚ) / 4294967296) sc ∧
    Binary64.value sc = (m.toNat : ℚ) / 4294967296 ∧
    Binary64.IsNearest ((u.toNat : ℚ) * Binary64.value sc) p ∧
    ⌊Binary64.value p⌋ = ((bounded u m).toNat : ℤ)

/-- R137. The range of `next_bounded_u32`. -/
def Obligations.BoundedRange : Prop :=
  ∀ u m : Word,
    (m = 0#32 → bounded u m = 0#32) ∧ (m ≠ 0#32 → (bounded u m).toNat < m.toNat) ∧
    (bounded u m).toNat = rne53 (u.toNat * m.toNat) / 2 ^ 32

/-- R138. The bounded integer is the exact quotient or one more; one more exactly when rounding carries the product up
to the next multiple of 2^32, which needs P ≥ 2^53 and P within 2^10 below that multiple. -/
def Obligations.BoundedMayExceedTheQuotientByOne : Prop :=
  (∀ u m : Word,
    let P := u.toNat * m.toNat
    ((bounded u m).toNat = P / 2 ^ 32 ∨ (bounded u m).toNat = P / 2 ^ 32 + 1) ∧
    ((bounded u m).toNat = P / 2 ^ 32 + 1 ↔ (P / 2 ^ 32 + 1) * 2 ^ 32 ≤ rne53 P) ∧
    ((bounded u m).toNat = P / 2 ^ 32 + 1 → 2 ^ 53 ≤ P ∧ (P / 2 ^ 32 + 1) * 2 ^ 32 ≤ P + 2 ^ 10)) ∧
  0xEFFFFFFF * 0xF0000001 / 2 ^ 32 = 3774873599 ∧
  (bounded 0xEFFFFFFF#32 0xF0000001#32).toNat = 3774873600

/-! ### The whole machine -/

/-- R178. Every step answers a next state: no command hangs, and nothing the host can issue stops the machine. That an
error is answered and not a stop of the model is the model's choice (log 4). -/
def Obligations.EveryStepCompletes : Prop :=
  ∀ s : State, ∃ t, step s = .next t

/-- R163. Between commands the block is idle and holds its state. -/
def Obligations.IdleBlockHoldsItsState : Prop :=
  ∀ s : State, s.inbox = [] → step s = .next s

/-- R47, R63, R156. Each command word is accepted and answered once, in order, and a command answered with a non-OK
status has written nothing of the block. That a command which fails with UNSEEDED or ILLEGAL answers a next state is the
model's choice (log 4), and `accepted` and `responses` are the model's own records (log 2). -/
def Obligations.OneAnswerAndErrorsWriteNothing : Prop :=
  ∀ (w : CommandWord) (s : State), ∃ t r, runCommand w s = .next t ∧
    t.accepted = s.accepted ++ [w] ∧ t.responses = s.responses ++ [r] ∧
    t.inbox = s.inbox ∧ t.epoch = s.epoch ∧
    (r.status ≠ 0b00#2 → t.block = s.block)

/-- R154. On an unseeded block a reserved word reports ILLEGAL, a legal draw UNSEEDED, and `seed` neither. That ILLEGAL and
UNSEEDED answer a next state is the model's choice (log 4). -/
def Obligations.IllegalIsCheckedBeforeUnseeded : Prop :=
  ∀ (w : CommandWord) (s : State), s.block.cur.val = 625 →
    ∃ t r, runCommand w s = .next t ∧ t.responses = s.responses ++ [r] ∧
      (opField w = 0b00#2 → r.status = 0b00#2) ∧
      ((opField w = 0b01#2 ∨ opField w = 0b10#2) ∧ argField w ≠ 0#32 → r.status = 0b10#2) ∧
      ((opField w = 0b01#2 ∨ opField w = 0b10#2) ∧ argField w = 0#32 → r.status = 0b01#2) ∧
      (opField w = 0b11#2 → r.status = 0b01#2)

/-- R63, R64, R153. The fields of every response word: status in bits 65:64, never 0b11; data in bits 63:0, 0 where
the status is not OK. -/
def Obligations.ResponseWordFields : Prop :=
  ∀ r : Response,
    r.word.extractLsb' 64 2 = r.status ∧ r.word.extractLsb' 0 64 = r.data ∧
    r.word.extractLsb' 64 2 ≠ 0b11#2 ∧
    (r.word.extractLsb' 64 2 ≠ 0b00#2 → r.word.extractLsb' 0 64 = 0#64) ∧
    (∀ d, r = .ok d → r.status = 0b00#2 ∧ r.data = d) ∧
    (r = .raised .unseeded → r.status = 0b01#2) ∧ (r = .raised .illegal → r.status = 0b10#2)

/-- R29, R170. After reset `cur` = 625 and nothing has been issued, accepted or answered. What the unwritten words of
`x` hold is not stated. -/
def Obligations.ResetState : Prop :=
  State.reset.block.cur.val = 625 ∧ State.reset.inbox = [] ∧
  State.reset.accepted = [] ∧ State.reset.responses = []

/-- R170, R163. Reset between commands, reset during a command and power loss all leave `cur` = 625 and begin a run
with nothing accepted or answered: a command cut by reset gives no response. What the host will issue next is kept
(log 2). -/
def Obligations.ResetEventsLeaveTheResetState : Prop :=
  ∀ (s : State) (e : HostEvent) (rest : List HostEvent), s.inbox = e :: rest →
    (e = .reset ∨ e = .powerLoss ∨ ∃ w, e = .commandCutByReset w) →
      ∃ t, step s = .next t ∧ t.block.cur.val = 625 ∧ t.accepted = [] ∧ t.responses = [] ∧ t.inbox = rest

/-- R171. From reset every draw answers UNSEEDED and does nothing; after `seed v` every draw answers OK. That UNSEEDED
answers a next state is the model's choice (log 4). -/
def Obligations.SeedIsTheBootSequence : Prop :=
  ∀ (v : Word) (d : Instr), d.isDraw = true →
    (∃ t, runCommands [encode d] State.reset = some t ∧ t.block = State.reset.block ∧
      t.responses = [.raised .unseeded]) ∧
    (∃ t r, runCommands [encode (.seed v), encode d] State.reset = some t ∧
      t.responses = [.ok 0#64, .ok r])

/-- R150, R173. A run that begins with a `seed` after reset and has only legal commands is safe: no response records a
fault. Its observation pairs each command, in order, with its response. -/
def Obligations.SeededRunsOfLegalCommandsAreSafe : Prop :=
  ∀ (v : Word) (is : List Instr),
    ∃ t, runCommands (encode (.seed v) :: is.map encode) State.reset = some t ∧ t.safe = true ∧
      t.observation.map Prod.fst = encode (.seed v) :: is.map encode ∧
      t.observation.map Prod.snd = t.responses

/-- R63 as an invariant: every step keeps one response per accepted command.The records it
speaks of are the model's own (log 2), and a run goes on after an error (log 4). -/
def Obligations.StepKeepsOneResponsePerCommand : Prop :=
  ∀ s t : State, s.OneResponsePerCommand → step s = .next t → t.OneResponsePerCommand

/-- R23, R24 as an invariant: every step keeps "unseeded exactly while no `seed` has been accepted since reset".The records it
speaks of are the model's own (log 2), and a run goes on after an error (log 4). -/
def Obligations.StepKeepsUnseededUntilSeed : Prop :=
  ∀ s t : State, s.UnseededUntilSeed → step s = .next t → t.UnseededUntilSeed

/-- R47 as an invariant: every step keeps "the state is what the accepted commands make of the reset state".The records it
speaks of are the model's own (log 2), and a run goes on after an error (log 4). -/
def Obligations.StepKeepsReplays : Prop :=
  ∀ s t : State, s.Replays → step s = .next t → t.Replays

/-- The three invariants hold right after reset. -/
def Obligations.InvariantsHoldAtReset : Prop :=
  State.reset.OneResponsePerCommand ∧ State.reset.UnseededUntilSeed ∧ State.reset.Replays

/-! ### The host's side -/

/-- R68. Every command has a line that assembles to its word; a line that assembles spells a command of its mnemonic,
so never a reserved encoding; an ill-formed line is an assembler error. -/
def Obligations.AssemblyLinesSpellLegalCommands : Prop :=
  (∀ i : Instr, assemble [Instr.toLine i] = .ok [.command (encode i)]) ∧
  (∀ (m : Mnemonic) (operand : Option Nat) (es : List HostEvent),
    assemble [.op m operand] = .ok es →
      ∃ i, Instr.mnemonic i = m ∧ es = [.command (encode i)] ∧ CommandWord.wellFormed (encode i) = true) ∧
  (∀ (m : Mnemonic) (operand : Option Nat),
    HostLine.wellFormed (.op m operand) = false → ∃ e, assemble [.op m operand] = .error e)

/-- R69. `.rep n` … `.endr` stands for `n` copies of the enclosed lines; `.cmd` sends the word as it stands;
construction with seed `s` is `reset`, then `seed s`. That the enclosed lines may hold repetitions themselves, and that a
count may be any number, is the model's choice (log 11). -/
def Obligations.HostNotationExpands : Prop :=
  (∀ (n : Nat) (lines : List HostLine) (es : List HostEvent), assemble lines = .ok es →
    assemble (.rep n :: lines ++ [.endr]) = .ok (List.replicate n es).flatten) ∧
  (∀ w : CommandWord, assemble [.cmd w.toNat] = .ok [.command w]) ∧
  (∀ s : Word, assemble (construction s) = .ok [.reset, .command (encode (.seed s))])

/-- R42. A bus delivers every command and response word intact whatever its lane order is (`HOST_LANE_ORDER`, OPEN). -/
def Obligations.BusDeliversWordsIntact : Prop :=
  (∀ (n b : Nat) (order : Equiv.Perm (Fin n)) (w : BitVec b), b ≤ 8 * n →
    gather b order (carry order w) = w) ∧
  (∀ w : CommandWord, deliverCommand w = w) ∧ (∀ w : ResponseWord, deliverResponse w = w)
end

