-- ==== Sys2Proof/Laws/Decode.lean ====
section
/-! SUPPORT. The fields of a command word, as numbers: what later proofs about decoding cite. -/

namespace Sys2Proof

theorem commandWord_toNat (op : BitVec 2) (arg : Word) :
    (commandWord op arg).toNat = op.toNat * 2 ^ 32 + arg.toNat := by
  have h : (op ++ arg).toNat = op.toNat <<< 32 ||| arg.toNat := BitVec.toNat_append op arg
  rw [Nat.shiftLeft_eq, Nat.mul_comm, ← Nat.two_pow_add_eq_or_of_lt arg.isLt, Nat.mul_comm] at h
  exact h

theorem opField_toNat (w : CommandWord) : (opField w).toNat = w.toNat / 2 ^ 32 := by
  have h : w.toNat < 2 ^ 34 := w.isLt
  simp only [opField, BitVec.extractLsb'_toNat, Nat.shiftRight_eq_div_pow]
  omega

theorem argField_toNat (w : CommandWord) : (argField w).toNat = w.toNat % 2 ^ 32 := by
  simp [argField, BitVec.extractLsb'_toNat]

@[simp] theorem opField_commandWord (op : BitVec 2) (arg : Word) : opField (commandWord op arg) = op := by
  have h : arg.toNat < 2 ^ 32 := arg.isLt
  apply BitVec.eq_of_toNat_eq
  rw [opField_toNat, commandWord_toNat]
  omega

@[simp] theorem argField_commandWord (op : BitVec 2) (arg : Word) : argField (commandWord op arg) = arg := by
  have h : arg.toNat < 2 ^ 32 := arg.isLt
  apply BitVec.eq_of_toNat_eq
  rw [argField_toNat, commandWord_toNat]
  omega

/-- A command word is its two fields. -/
theorem commandWord_fields (w : CommandWord) : commandWord (opField w) (argField w) = w := by
  apply BitVec.eq_of_toNat_eq
  rw [commandWord_toNat, opField_toNat, argField_toNat]
  omega

end Sys2Proof
end

