-- ==== Sys2Proof/Laws/State.lean ====
section
/-! SUPPORT. One lemma per field per update of the state, and what each shared operation of Ops.lean leaves. -/

namespace Sys2Proof.Machine

@[simp] theorem respond_block (r : Response) (s : State) : (respond r s).block = s.block := rfl
@[simp] theorem respond_inbox (r : Response) (s : State) : (respond r s).inbox = s.inbox := rfl
@[simp] theorem respond_accepted (r : Response) (s : State) : (respond r s).accepted = s.accepted := rfl
@[simp] theorem respond_responses (r : Response) (s : State) :
    (respond r s).responses = s.responses ++ [r] := rfl
@[simp] theorem respond_epoch (r : Response) (s : State) : (respond r s).epoch = s.epoch := rfl

@[simp] theorem complete_block (b : Block) (d : DataWord) (s : State) : (complete b d s).block = b := rfl
@[simp] theorem complete_inbox (b : Block) (d : DataWord) (s : State) :
    (complete b d s).inbox = s.inbox := rfl
@[simp] theorem complete_accepted (b : Block) (d : DataWord) (s : State) :
    (complete b d s).accepted = s.accepted := rfl
@[simp] theorem complete_responses (b : Block) (d : DataWord) (s : State) :
    (complete b d s).responses = s.responses ++ [.ok d] := rfl
@[simp] theorem complete_epoch (b : Block) (d : DataWord) (s : State) :
    (complete b d s).epoch = s.epoch := rfl

@[simp] theorem raise_block (f : Fault) (s : State) : (raise f s).block = s.block := rfl
@[simp] theorem raise_inbox (f : Fault) (s : State) : (raise f s).inbox = s.inbox := rfl
@[simp] theorem raise_accepted (f : Fault) (s : State) : (raise f s).accepted = s.accepted := rfl
@[simp] theorem raise_responses (f : Fault) (s : State) :
    (raise f s).responses = s.responses ++ [.raised f] := rfl
@[simp] theorem raise_epoch (f : Fault) (s : State) : (raise f s).epoch = s.epoch := rfl

@[simp] theorem accept_block (w : CommandWord) (s : State) : (accept w s).block = s.block := rfl
@[simp] theorem accept_inbox (w : CommandWord) (s : State) : (accept w s).inbox = s.inbox := rfl
@[simp] theorem accept_accepted (w : CommandWord) (s : State) :
    (accept w s).accepted = s.accepted ++ [w] := rfl
@[simp] theorem accept_responses (w : CommandWord) (s : State) :
    (accept w s).responses = s.responses := rfl
@[simp] theorem accept_epoch (w : CommandWord) (s : State) : (accept w s).epoch = s.epoch := rfl

@[simp] theorem takeReset_block (s : State) : (takeReset s).block = Block.afterReset (s.epoch + 1) := rfl
@[simp] theorem takeReset_inbox (s : State) : (takeReset s).inbox = s.inbox := by simp only [takeReset]
@[simp] theorem takeReset_accepted (s : State) : (takeReset s).accepted = [] := rfl
@[simp] theorem takeReset_responses (s : State) : (takeReset s).responses = [] := rfl
@[simp] theorem takeReset_epoch (s : State) : (takeReset s).epoch = s.epoch + 1 := rfl

@[simp] theorem unseeded_val : Cursor.unseeded.val = 625 := rfl

/-- The block is seeded exactly when its cursor is not 625. -/
theorem seeded_iff (b : Block) : b.seeded = true ↔ b.cur.val ≠ 625 := by
  simp [Block.seeded, Fin.ext_iff]

end Sys2Proof.Machine
end

