-- ==== Sys2Proof/Laws/Draw.lean ====
section
/-! SUPPORT. What the draw primitive and the operation the three draws share can do, said once. -/

namespace Sys2Proof.Machine

/-- Below 624 a draw reads the word at the cursor and only advances. -/
theorem drawRaw_below (b : Block) (h : b.cur.val < 624) :
    drawRaw b = (b.x[b.cur.val], { x := b.x, cur := ⟨b.cur.val + 1, by omega⟩ }) := by
  simp [drawRaw, h, takeWord]

/-- From 624 up a draw twists, reads word 0 and leaves the cursor at 1. -/
theorem drawRaw_twists (b : Block) (h : 624 ≤ b.cur.val) :
    drawRaw b = ((twist b.x)[0], { x := twist b.x, cur := 1 }) := by
  simp [drawRaw, Nat.not_lt.mpr h, takeWord]

/-- A draw leaves the cursor from 1 to 624. -/
theorem drawRaw_cur_range (b : Block) : 1 ≤ (drawRaw b).2.cur.val ∧ (drawRaw b).2.cur.val ≤ 624 := by
  by_cases h : b.cur.val < 624
  · rw [drawRaw_below b h]
    exact ⟨Nat.le_add_left 1 _, h⟩
  · rw [drawRaw_twists b (by omega)]
    exact ⟨Nat.le_refl 1, by simp⟩

/-- Everything a draw command can do: on a seeded block one whole draw answered OK, otherwise UNSEEDED and nothing
else. -/
theorem draw_cases (form : Word → DataWord) (s : State) :
    (s.block.seeded = true ∧
      draw form s = complete (drawRaw s.block).2 (form (temper (drawRaw s.block).1)) s) ∨
    (s.block.seeded = false ∧ draw form s = raise .unseeded s) := by
  cases h : s.block.seeded <;> simp [draw, h]

end Sys2Proof.Machine
end

