-- ==== Sys2Proof/Laws/PerInstr.lean ====
section
/-! SUPPORT. A property of every command as syntax, one lemma per constructor: its word lies in the row of the field
summary (spec/30_encoding.md R67) that bears its mnemonic. -/

namespace Sys2Proof.Laws.EncodesInItsRow

/-- Some row of the opcode table bears the command's mnemonic and covers its word (R67). -/
def Statement (i : Instr) : Prop :=
  ∃ r ∈ opcodeTable, r.mnemonic = i.mnemonic ∧ r.covers (encode i) = true

theorem masked_op (op : BitVec 2) (arg : Word) :
    commandWord op arg &&& 0x300000000#34 = commandWord op 0#32 := by
  apply BitVec.eq_of_getLsbD_eq
  intro k hk
  have h : (0x300000000#34).getLsbD k = decide (32 ≤ k) := by
    revert k; decide
  simp only [commandWord, BitVec.getLsbD_and, BitVec.getLsbD_append, h]
  by_cases hk' : k < 32
  · simp [hk', Nat.not_le.mpr hk']
  · simp [hk', Nat.not_lt.mp hk']

theorem seed (v : Word) : Statement (.seed v) :=
  ⟨⟨.seed, 0x000000000#34, 0x300000000#34⟩, by simp [opcodeTable], rfl, by
    rw [OpcodeRow.covers, encode, masked_op]; decide⟩

theorem nextU32 : Statement .nextU32 :=
  ⟨⟨.nextU32, 0x100000000#34, 0x3FFFFFFFF#34⟩, by simp [opcodeTable], rfl, by decide⟩

theorem nextF64 : Statement .nextF64 :=
  ⟨⟨.nextF64, 0x200000000#34, 0x3FFFFFFFF#34⟩, by simp [opcodeTable], rfl, by decide⟩

theorem nextBoundedU32 (m : Word) : Statement (.nextBoundedU32 m) :=
  ⟨⟨.nextBoundedU32, 0x300000000#34, 0x300000000#34⟩, by simp [opcodeTable], rfl, by
    rw [OpcodeRow.covers, encode, masked_op]; decide⟩

end Sys2Proof.Laws.EncodesInItsRow
end

