-- ==== Sys2Proof/Laws/Rounding.lean ====
section
/-! SUPPORT. What the bit length and the rounding do, said once (spec/00_scope.md R10). -/

namespace Sys2Proof.Machine

/-- The bit length `p` of a positive number: `2^(p-1) ≤ n < 2^p`. -/
theorem bitLength_bounds (n : Nat) (h : n ≠ 0) : 2 ^ (bitLength n - 1) ≤ n ∧ n < 2 ^ bitLength n := by
  simp only [bitLength, if_neg h, Nat.add_sub_cancel]
  exact ⟨Nat.log2_self_le h, Nat.lt_log2_self⟩

/-- Below 2^53 nothing is rounded. -/
theorem rne53_below (Q : Nat) (h : Q < 2 ^ 53) : rne53 Q = Q := if_pos h

/-- From 2^53 up, `Q` is `q` units of `2^s` and a remainder, `q` of 53 bits, and the result is `q` or `q + 1` units:
`q` where the remainder is under half a unit or half with `q` even, else `q + 1`. -/
theorem rne53_cases (Q : Nat) (h : 2 ^ 53 ≤ Q) :
    ∃ s q r, s + 1 = bitLength Q - 52 ∧ s ≠ 0 ∧ 2 ^ 52 ≤ q ∧ q < 2 ^ 53 ∧ Q = q * 2 ^ s + r ∧ r < 2 ^ s ∧
      ((rne53 Q = q * 2 ^ s ∧ (r < 2 ^ (s - 1) ∨ (r = 2 ^ (s - 1) ∧ q % 2 = 0))) ∨
       (rne53 Q = (q + 1) * 2 ^ s ∧ (2 ^ (s - 1) < r ∨ (r = 2 ^ (s - 1) ∧ q % 2 = 1)))) := by
  obtain ⟨hl, hu⟩ := bitLength_bounds Q (by omega)
  have hp : 54 ≤ bitLength Q := by
    by_contra hc
    have : 2 ^ bitLength Q ≤ 2 ^ 53 := Nat.pow_le_pow_right (by decide) (by omega)
    omega
  refine ⟨bitLength Q - 53, Q >>> (bitLength Q - 53), Q % 2 ^ (bitLength Q - 53), by omega, by omega, ?_, ?_, ?_,
    Nat.mod_lt _ (Nat.two_pow_pos _), ?_⟩
  · rw [Nat.shiftRight_eq_div_pow, Nat.le_div_iff_mul_le (Nat.two_pow_pos _), ← pow_add]
    rwa [show 52 + (bitLength Q - 53) = bitLength Q - 1 by omega]
  · rw [Nat.shiftRight_eq_div_pow, Nat.div_lt_iff_lt_mul (Nat.two_pow_pos _), ← pow_add]
    rwa [show 53 + (bitLength Q - 53) = bitLength Q by omega]
  · rw [Nat.shiftRight_eq_div_pow, Nat.mul_comm]
    exact (Nat.div_add_mod Q _).symm
  · simp only [rne53, if_neg (Nat.not_lt.mpr h)]
    split
    · exact .inr ⟨rfl, by assumption⟩
    · refine .inl ⟨rfl, ?_⟩
      omega

end Sys2Proof.Machine
end

