-- ==== Sys2Proof/Laws/Step.lean ====
section
/-! SUPPORT. What a command word and a step can do, said once: later proofs case on these and unfold neither. -/

namespace Sys2Proof.Machine

/-- How the three draws turn the tempered word into data. -/
def Instr.form : Instr → Word → DataWord
  | .seed _ => fun _ => 0#64
  | .nextU32 => zext64
  | .nextF64 => f64Bits
  | .nextBoundedU32 m => fun u => zext64 (bounded u m)

/-- A draw command is the shared draw with its own output form. -/
theorem exec_draw (i : Instr) (s : State) (h : i.isDraw = true) :
    exec i s = .next (draw (Instr.form i) s) := by
  cases i with
  | seed v => cases h
  | nextU32 => rfl
  | nextF64 => rfl
  | nextBoundedU32 m => rfl

/-- Everything a command word can do, whatever the state: a `seed`, a draw on a seeded block, a draw turned away
UNSEEDED, or a reserved word turned away ILLEGAL. -/
theorem runCommand_cases (w : CommandWord) (s : State) :
    (∃ v, decode w = .ok (.seed v) ∧
      runCommand w s = .next (complete (seedBlock v s.block) 0#64 (accept w s))) ∨
    (∃ i, decode w = .ok i ∧ i.isDraw = true ∧ s.block.seeded = true ∧
      runCommand w s =
        .next (complete (drawRaw s.block).2 (Instr.form i (temper (drawRaw s.block).1)) (accept w s))) ∨
    (∃ i, decode w = .ok i ∧ i.isDraw = true ∧ s.block.seeded = false ∧
      runCommand w s = .next (raise .unseeded (accept w s))) ∨
    (decode w = .error .reservedEncoding ∧ runCommand w s = .next (raise .illegal (accept w s))) := by
  unfold runCommand
  cases hd : decode w with
  | error e => cases e; simp
  | ok i =>
    cases hi : i.isDraw with
    | false =>
      cases i with
      | seed v => exact .inl ⟨v, rfl, rfl⟩
      | nextU32 => cases hi
      | nextF64 => cases hi
      | nextBoundedU32 m => cases hi
    | true =>
      refine .inr ?_
      have hx : exec i (accept w s) = .next (draw (Instr.form i) (accept w s)) := exec_draw i _ hi
      rcases draw_cases (Instr.form i) (accept w s) with ⟨hs, h⟩ | ⟨hs, h⟩
      · exact .inl ⟨i, rfl, hi, hs, by simpa [h] using hx⟩
      · exact .inr (.inl ⟨i, rfl, hi, hs, by simpa [h] using hx⟩)

/-- Everything a step can do: nothing where no event is pending, a command word, or a reset. -/
theorem step_cases (s : State) :
    (s.inbox = [] ∧ step s = .next s) ∨
    (∃ w rest, s.inbox = .command w :: rest ∧ step s = runCommand w { s with inbox := rest }) ∨
    (∃ e rest, s.inbox = e :: rest ∧ (∀ w, e ≠ .command w) ∧
      step s = .next (takeReset { s with inbox := rest })) := by
  unfold step
  cases hb : s.inbox with
  | nil => exact .inl ⟨rfl, rfl⟩
  | cons e rest =>
    cases e with
    | command w => exact .inr (.inl ⟨w, rest, rfl, rfl⟩)
    | reset => exact .inr (.inr ⟨_, rest, rfl, fun _ => by simp, rfl⟩)
    | commandCutByReset w => exact .inr (.inr ⟨_, rest, rfl, fun _ => by simp, rfl⟩)
    | powerLoss => exact .inr (.inr ⟨_, rest, rfl, fun _ => by simp, rfl⟩)

end Sys2Proof.Machine
end

