-- ==== Sys2Proof/Laws/Vectors.lean ====
section
/-! SUPPORT. What the passes of the two in-place loops, seed expansion and twist, leave in each word. -/

namespace Sys2Proof.Machine

theorem seedStep_getElem (x : StateVector) (k : Nat) (h : k + 1 < 624) (j : Nat) (hj : j < 624) :
    (seedStep x k h)[j] = if k + 1 = j then seedNext x[k] (k + 1) else x[j] := by
  simp [seedStep, Vector.getElem_set]

/-- The first `k` passes of the seed loop write no word above `k`. -/
theorem seedLoop_keeps_above (x : StateVector) :
    ∀ (k : Nat) (h : k < 624) (j : Nat) (hj : j < 624), k < j → (seedLoop x k h)[j] = x[j]
  | 0, _, _, _, _ => rfl
  | k + 1, h, j, hj, hkj => by
    rw [seedLoop, seedStep_getElem, if_neg (by omega)]
    exact seedLoop_keeps_above x k (by omega) j hj (by omega)

/-- A pass of the seed loop writes no word below its own. -/
theorem seedLoop_keeps_below (x : StateVector) (k : Nat) (h : k + 1 < 624) (j : Nat) (hj : j ≤ k) :
    (seedLoop x (k + 1) h)[j] = (seedLoop x k (by omega))[j] := by
  rw [seedLoop, seedStep_getElem, if_neg (by omega)]

theorem twistStep_getElem (x : StateVector) (i : Nat) (h : i < 624) (j : Nat) (hj : j < 624) :
    (twistStep x i h)[j] =
      if i = j then
        twistWord x[i] (x[nextIndex i]'(nextIndex_lt i)) (x[feedIndex i]'(feedIndex_lt i))
      else x[j] := by
  simp [twistStep, Vector.getElem_set]

/-- The first `k` steps of the twist write no word from `k` up. -/
theorem twistLoop_keeps_above (x : StateVector) :
    ∀ (k : Nat) (h : k ≤ 624) (j : Nat) (hj : j < 624), k ≤ j → (twistLoop x k h)[j] = x[j]
  | 0, _, _, _, _ => rfl
  | k + 1, h, j, hj, hkj => by
    rw [twistLoop, twistStep_getElem, if_neg (by omega)]
    exact twistLoop_keeps_above x k (by omega) j hj (by omega)

/-- A step of the twist writes no word below its own. -/
theorem twistLoop_keeps_below (x : StateVector) (k : Nat) (h : k + 1 ≤ 624) (j : Nat) (hj : j < k) :
    (twistLoop x (k + 1) h)[j] = (twistLoop x k (by omega))[j] := by
  rw [twistLoop, twistStep_getElem, if_neg (by omega)]

/-- Once a step of the twist has run, no later step of that twist writes its word. -/
theorem twistLoop_final (x : StateVector) (k : Nat) (h : k ≤ 624) (j : Nat) (hj : j < k) :
    (twistLoop x k h)[j] = (twist x)[j] := by
  have later : ∀ d (hd : k + d ≤ 624), (twistLoop x (k + d) hd)[j] = (twistLoop x k h)[j] := by
    intro d
    induction d with
    | zero => intro _; rfl
    | succ d ih =>
      intro hd
      rw [← ih (by omega)]
      exact twistLoop_keeps_below x (k + d) hd j (by omega)
  have full := later (624 - k) (by omega)
  have e : k + (624 - k) = 624 := by omega
  simp only [e] at full
  unfold twist
  exact full.symm

/-- The feedback word a bit selects (spec/10_state.md R28). -/
theorem mag01_lowBit (y : Word) :
    mag01 (y.extractLsb' 0 1) = if y.getLsbD 0 then 0x9908B0DF#32 else 0x00000000#32 := by
  have h : y.extractLsb' 0 1 = BitVec.ofBool (y.getLsbD 0) := by
    apply BitVec.eq_of_getLsbD_eq
    intro i hi
    have : i = 0 := by omega
    subst this
    simp
  rw [h]
  cases y.getLsbD 0 <;> rfl

end Sys2Proof.Machine
end

