-- ==== Sys2Proof/Tests/Slice0.lean ====
section
/-! SUPPORT. The model's own tests, their expected values from spec/95_test_vectors.md (the section stands at each), and
a witness that meets the hypotheses of every statement that has some. -/

namespace Sys2Proof.Tests

open Sys2Proof.Machine

/-- A state vector with the given words, 0 elsewhere. -/
def sparseVector : List (Nat × Word) → StateVector
  | [] => Vector.replicate 624 0#32
  | (i, v) :: rest => (sparseVector rest).setIfInBounds i v

/-- A state with the given words, cursor and pending events, and nothing accepted or answered. -/
def smallState (words : List (Nat × Word)) (cur : Cursor) (inbox : List HostEvent) : State :=
  { block := { x := sparseVector words, cur := cur }, inbox := inbox, accepted := [], responses := [], epoch := 0 }

/-- The next state, where there is one. -/
def nextState : Host.Outcome State Fault Refusal → Option State
  | .next s => some s
  | .fault _ => none
  | .refused _ => none

/-- What a test looks at: the cursor and the responses' data and status. -/
def look (s : State) : Nat × List (Nat × Nat) :=
  (s.block.cur.val, s.responses.map fun r => (r.status.toNat, r.data.toNat))

/-! ### Well-formedness: an ill-formed term for each check (R62, R65, R68, R69) -/

theorem test_wellFormed_commands :
    [Instr.seed 0xFFFFFFFF#32, .nextU32, .nextF64, .nextBoundedU32 0#32].all Instr.wellFormed = true := by decide
theorem test_illFormed_next_u32_word : CommandWord.wellFormed 0x100000001#34 = false := by decide
theorem test_illFormed_next_f64_word : CommandWord.wellFormed 0x2FFFFFFFF#34 = false := by decide
theorem test_illFormed_operand_missing : (HostLine.op .seed none).wellFormed = false := by decide
theorem test_illFormed_operand_not_taken : (HostLine.op .nextU32 (some 0)).wellFormed = false := by decide
theorem test_illFormed_operand_too_large :
    (HostLine.op .nextBoundedU32 (some 4294967296)).wellFormed = false := by decide
theorem test_illFormed_raw_word : (HostLine.cmd (2 ^ 34)).wellFormed = false := by decide

/-! ### Decoding: words written out from R60, R61 (section 2.8) -/

theorem test_decode_seed : decode 0x000001571#34 = .ok (.seed 5489#32) := by decide
theorem test_decode_seed_bits :
    decode (0b00#2 ++ 0b11111111111111111111111111111111#32) = .ok (.seed 4294967295#32) := by decide
theorem test_decode_next_u32 : decode 0b0100000000000000000000000000000000#34 = .ok .nextU32 := by decide
theorem test_decode_next_f64 : decode 0b1000000000000000000000000000000000#34 = .ok .nextF64 := by decide
theorem test_decode_next_bounded_u32 : decode 0x3000014C9#34 = .ok (.nextBoundedU32 5321#32) := by decide
theorem test_decode_reserved : decode 0x180000000#34 = .error .reservedEncoding := by decide
theorem test_decodeTableWord_row : decodeTableWord 40 0x3FFFFFFFF = some (.nextBoundedU32 4294967295#32) := by decide
theorem test_decodeTableWord_too_wide : decodeTableWord 40 0x400000000 = none := by decide

/-! ### Seed expansion (section 2.1) -/

theorem test_seed_first_words :
    seedNext 0x00001571#32 1 = 0x4D98EE96#32 ∧ seedNext 0x4D98EE96#32 2 = 0xAF25F095#32 := by decide
theorem test_seed_wraps : seedNext 0xFFFFFFFF#32 1 = 0x4FE1DA6D#32 ∧ seedNext 0#32 1 = 1#32 := by decide
theorem test_seed_vector_word : (seedVector 5489#32 (sparseVector []))[2] = 0xAF25F095#32 := by decide +kernel
theorem test_exec_seed :
    (nextState (execSeed 0#32 (smallState [] Cursor.unseeded []))).map look = some (624, [(0, 0)]) := by decide

/-! ### Twist (section 2.2): the table's six rows, and the order (the negative vector gives 0xC8EE17F1) -/

theorem test_twist_row_0 : twistWord 0x00001571#32 0x4D98EE96#32 0xBDC68D6C#32 = 0x9B0AFA27#32 := by decide
theorem test_twist_row_1 : twistWord 0x4D98EE96#32 0xAF25F095#32 0x6707ABF4#32 = 0xE99DE361#32 := by decide
theorem test_twist_row_226 : twistWord 0xAA736D50#32 0x9A49043D#32 0x04C46D8C#32 = 0xD0E85F4D#32 := by decide
theorem test_twist_row_227 : twistWord 0x9A49043D#32 0xA3CD64BF#32 0x9B0AFA27#32 = 0x53E4F8A7#32 := by decide
theorem test_twist_row_622 : twistWord 0xA9881B5B#32 0x04C46D8C#32 0x9292FA3C#32 = 0xD0F0CCFA#32 := by decide
theorem test_twist_row_623 : twistWord 0x04C46D8C#32 0x9B0AFA27#32 0x453CCF7B#32 = 0xD1B102B7#32 := by decide
theorem test_twist_wraps :
    (twistStep (sparseVector [(623, 0x04C46D8C#32), (0, 0x9B0AFA27#32), (396, 0x453CCF7B#32)]) 623 (by decide))[623]
      = 0xD1B102B7#32 := by decide +kernel
theorem test_twist_reads_new_word :
    (twist (sparseVector [(0, 0x00001571#32), (1, 0x4D98EE96#32), (397, 0xBDC68D6C#32), (227, 0x9A49043D#32),
      (228, 0xA3CD64BF#32)]))[227] = 0x53E4F8A7#32 := by decide +kernel

/-! ### Tempering (section 2.3) -/

theorem test_temper_stages :
    temper1 0xDEADBEEF#32 = 0xDEB66B58#32 ∧ temper2 0xDEB66B58#32 = 0xC7926F58#32 ∧
    temper3 0xC7926F58#32 = 0xE0166F58#32 ∧ temper4 0xE0166F58#32 = 0xE016575D#32 := by decide
theorem test_temper_top_bits : temper 0xFFFFFFFF#32 = 0x6FE01BF8#32 ∧ temper 1#32 = 0x00400091#32 := by decide
theorem test_untemper :
    untemper 0x12345678#32 = 0x32500A74#32 ∧ untemper 0xDEADBEEF#32 = 0x8F3A6C09#32 := by decide

/-! ### Draws (section 2.4, program P1) -/

theorem test_next_u32_reads_at_cursor :
    (nextState (execNextU32 (smallState [(5, 0x9B0AFA27#32)] 5 []))).map look = some (6, [(0, 3499211612)]) := by
  decide +kernel
theorem test_next_u32_twists_first :
    (nextState (execNextU32
      (smallState [(0, 0x00001571#32), (1, 0x4D98EE96#32), (397, 0xBDC68D6C#32)] 624 []))).map look
      = some (1, [(0, 3499211612)]) := by decide +kernel
theorem test_next_u32_last_word_owes_the_twist :
    (nextState (execNextU32 (smallState [(623, 0x12DD9BB3#32)] 623 []))).map look = some (624, [(0, 4294967295)]) := by
  decide +kernel
theorem test_next_f64_reaches_one :
    (nextState (execNextF64 (smallState [(0, 0x12DD9BB3#32)] 0 []))).map look
      = some (1, [(0, 0x3FF0000000000000)]) := by decide +kernel
theorem test_next_bounded_below_its_bound :
    (nextState (execNextBoundedU32 0xFFFFFFFF#32 (smallState [(0, 0x12DD9BB3#32)] 0 []))).map look
      = some (1, [(0, 4294967294)]) := by decide +kernel

/-! ### `next_f64` and `next_bounded_u32` corners (sections 2.5, 2.7) -/

theorem test_f64_small :
    f64Bits 0#32 = 0x0000000000000000#64 ∧ f64Bits 1#32 = 0x3DF0000000100000#64 ∧
    f64Bits 0x001FFFFF#32 = 0x3F3FFFFF001FFFFF#64 ∧ f64Bits 0x00200000#32 = 0x3F40000000100000#64 := by decide
theorem test_f64_ties :
    f64Bits 0x80000400#32 = 0x3FE0000080100000#64 ∧ f64Bits 0x80000C00#32 = 0x3FE0000180100002#64 ∧
    f64Bits 0x0FB5D240#32 = 0x3FAF6BA4801F6BA4#64 ∧ f64Bits 0xFFFFFFFE#32 = 0x3FEFFFFFFFE00000#64 := by decide
theorem test_bounded_source_example :
    bounded 491637936#32 5321#32 = 609#32 ∧ bounded 419326371#32 4294967295#32 = 419326370#32 ∧
    bounded 2365658986#32 2#32 = 1#32 ∧ bounded 2781210584#32 58#32 = 37#32 ∧
    bounded 4180671672#32 121#32 = 117#32 := by decide
theorem test_bounded_carries :
    bounded 0xEFFFFFFF#32 0xF0000001#32 = 3774873600#32 ∧ bounded 0xBFFFFFFF#32 0xC0000001#32 = 2415919104#32 ∧
    bounded 0xFFFFFFFF#32 0#32 = 0#32 ∧ bounded 0xFFFFFFFF#32 1#32 = 0#32 := by decide

/-! ### Errors and steps (section 2.8, program P3) -/

theorem test_unseeded_draw_is_answered :
    (nextState (step (State.reset.withFetchWord 34 0x100000000))).map look = some (625, [(1, 0)]) := by decide
theorem test_illegal_before_unseeded :
    (nextState (step (State.reset.withFetchWord 34 0x180000000))).map look = some (625, [(2, 0)]) := by decide
theorem test_seed_runs_from_reset :
    (nextState (step (State.reset.withFetchWord 40 0x000001571))).map look = some (624, [(0, 0)]) := by decide
theorem test_commands_after_errors_run :
    (runCommands [0x100000000#34, 0x200000001#34, 0x000000000#34] State.reset).map look
      = some (624, [(1, 0), (2, 0), (0, 0)]) := by decide

/-! ### Assembly text (R68, R69) -/

theorem test_assemble_program :
    assembleText ['r', 'e', 's', 'e', 't', '\n', 's', 'e', 'e', 'd', ' ', '0', 'x', '1', 'F', ' ', ';', 'x', '\n',
      '.', 'c', 'm', 'd', ' ', '0', 'x', '2', '0', '0', '0', '0', '0', '0', '0', '1']
      = .ok [.reset, .command 0x00000001F#34, .command 0x200000001#34] := by decide +kernel
theorem test_assemble_repetition :
    assemble [.rep 2, .op .nextU32 none, .rep 1, .reset, .endr, .endr]
      = .ok [.command 0x100000000#34, .reset, .command 0x100000000#34, .reset] := by decide

/-! ### Witnesses: the hypotheses of each statement can be met -/

theorem witness_ReservedWords_next_u32 :
    ((0x100000001#34).extractLsb' 32 2 = 0b01#2 ∨ (0x100000001#34).extractLsb' 32 2 = 0b10#2) ∧
      (0x100000001#34).extractLsb' 0 32 ≠ 0#32 := by decide

theorem witness_ReservedWords :
    ((0x2FFFFFFFF#34).extractLsb' 32 2 = 0b01#2 ∨ (0x2FFFFFFFF#34).extractLsb' 32 2 = 0b10#2) ∧
      (0x2FFFFFFFF#34).extractLsb' 0 32 ≠ 0#32 ∧
    ¬(((0x3FFFFFFFF#34).extractLsb' 32 2 = 0b01#2 ∨ (0x3FFFFFFFF#34).extractLsb' 32 2 = 0b10#2) ∧
      (0x3FFFFFFFF#34).extractLsb' 0 32 ≠ 0#32) := by decide

theorem witness_OpcodeRows : decode 0x2FFFFFFFF#34 = .error .reservedEncoding := by decide

theorem witness_StepRunsTheDecodedCommand :
    (smallState [] 0 [.command 0x100000000#34, .reset]).inbox = .command 0x100000000#34 :: [.reset] ∧
    decode 0x100000000#34 = .ok .nextU32 := ⟨rfl, by decide⟩

theorem witness_SeedExample : (5489#32 : Word) = 5489#32 := rfl

theorem witness_SeedIsIdempotent (s : State) :
    ∃ t u, exec (.seed 7#32) s = .next t ∧ exec (.seed 7#32) t = .next u := ⟨_, _, rfl, rfl⟩

/-- Draws below the last word, at it, and with a twist owed: the boundary values of the clauses on the cursor. -/
theorem witness_Draws :
    (smallState [] 0 []).block.cur.val < 624 ∧ (smallState [] 623 []).block.cur.val < 624 ∧
    (smallState [] 624 []).block.cur.val = 624 ∧ (smallState [] 624 []).block.cur.val ≠ 625 ∧
    Instr.nextU32.isDraw = true ∧ Instr.nextF64.isDraw = true ∧ (Instr.nextBoundedU32 0#32).isDraw = true := by
  decide

theorem witness_UnseededDraws :
    State.reset.block.cur.val = 625 ∧ Instr.nextU32.isDraw = true ∧
    (∃ t, exec (.seed 0#32) State.reset = .next t) := ⟨rfl, rfl, _, rfl⟩

theorem witness_LegalCommands :
    decode 0x3000014C9#34 = .ok (.nextBoundedU32 5321#32) ∧ (smallState [] 3 []).block.cur.val ≠ 625 := by decide

theorem witness_BlockAfterSeedAndDraws :
    ∀ d ∈ [Instr.nextU32, .nextF64, .nextBoundedU32 5#32], d.isDraw = true := by decide

theorem witness_TwistReads : (623 : Nat) < 624 ∧ ¬(623 : Nat) < 623 ∧ (226 : Nat) < 227 ∧ ¬(227 : Nat) < 227 := by decide

theorem witness_TwistIgnoresLowBits : (0x7FFFFFFF#32).getLsbD 31 = (sparseVector [])[0].getLsbD 31 := by decide +kernel

theorem witness_TwistIndexArithmetic : (226 : Nat) < 624 ∧ (227 : Nat) < 624 ∧ (623 : Nat) < 624 := by decide

theorem witness_OnlySeedTwistAndResetWriteX :
    ∃ t, step (smallState [] 0 [.command 0x000000001#34]) = .next t ∧
      t.block.x ≠ (smallState [] 0 [.command 0x000000001#34]).block.x := by
  refine ⟨_, rfl, fun h => ?_⟩
  have h1 := congrArg (fun x : StateVector => x[0]) h
  exact absurd h1 (by decide +kernel)

theorem witness_OnlyResetUnseeds :
    (smallState [] 3 [.reset]).block.cur.val ≤ 624 ∧
    (nextState (step (smallState [] 3 [.reset]))).map (fun t => t.block.cur.val) = some 625 ∧
    (nextState (step (smallState [] 3 []))).map (fun t => t.block.cur.val) = some 3 := by decide

theorem witness_Rounding :
    (2 ^ 64 - 1 : Nat) < 2 ^ 64 ∧ (2 ^ 52 + 1 : Nat) < 2 ^ 53 ∧ ((2 ^ 53 + 1 : Nat) : ℤ) - 2 ^ 53 = 1 ∧
    rne53 (2 ^ 53 + 1) = 2 ^ 53 ∧ rne53 (2 ^ 53 + 3) = 2 ^ 53 + 4 := by decide

theorem witness_F64Order : (0xFFFFFFFE#32).toNat < (0xFFFFFFFF#32).toNat := by decide

theorem witness_BoundedRange : (1#32 : Word) ≠ 0#32 ∧ (0#32 : Word) = 0#32 := by decide

theorem witness_IdleBlock : (smallState [] 0 []).inbox = [] := rfl

/-- Both ways to fail, run: the answer's status is not OK and the cursor has not moved. -/
theorem witness_OneAnswer :
    (nextState (runCommand 0x2FFFFFFFF#34 (smallState [] 5 []))).map look = some (5, [(2, 0)]) ∧
    (nextState (runCommand 0x100000000#34 (smallState [] 625 []))).map look = some (625, [(1, 0)]) := by decide

theorem witness_IllegalBeforeUnseeded :
    opField 0x180000000#34 = 0b01#2 ∧ argField 0x180000000#34 ≠ 0#32 ∧ opField 0x200000000#34 = 0b10#2 ∧
    argField 0x200000000#34 = 0#32 ∧ opField 0x300000000#34 = 0b11#2 ∧ opField 0x0FFFFFFFF#34 = 0b00#2 := by decide

theorem witness_ResetEvents :
    (smallState [] 0 [.commandCutByReset 0x000000001#34, .powerLoss]).inbox =
      .commandCutByReset 0x000000001#34 :: [.powerLoss] := rfl

/-- Reset meets the three invariants, and so does a state after a command: their step statements have premises that
hold, also where the step runs a command. -/
theorem witness_Invariants :
    ∃ s t, s = State.reset.withFetchWord 34 0x100000000 ∧ step s = .next t ∧
      s.OneResponsePerCommand ∧ s.UnseededUntilSeed ∧ s.Replays :=
  ⟨_, _, rfl, rfl, rfl, ⟨fun _ _ h => (by cases h), fun _ => rfl⟩, rfl⟩

theorem witness_AssemblyLines :
    assemble [.op .seed (some 1)] = .ok [.command 0x000000001#34] ∧
    (HostLine.op .seed (some 4294967296)).wellFormed = false := by decide

theorem witness_HostNotation : assemble [.op .nextU32 none] = .ok [.command 0x100000000#34] := by decide

theorem witness_Bus : 34 ≤ 8 * 5 ∧ 66 ≤ 8 * 9 := by decide

end Sys2Proof.Tests
end

section
/-! The rounding of R10 picks the nearest 53-bit significand, a tie going to the even one: no such number lies strictly
between the neighbours `q × 2^s` and `(q + 1) × 2^s` of `Q`, and `rne53` picks the nearer of the two. -/

namespace Sys2Proof.Machine

/-- A number of at most 53 significant bits misses the gap between neighbours whose significand has 53 bits: a multiple
of `2^s` is at or beyond one of them, and a smaller exponent leaves it below both. -/
theorem mul_two_pow_outside_gap {q s c e : Nat} (hq : 2 ^ 52 ≤ q) (hc : c < 2 ^ 53) :
    c * 2 ^ e ≤ q * 2 ^ s ∨ (q + 1) * 2 ^ s ≤ c * 2 ^ e := by
  obtain hse | hes := le_or_gt s e
  · have hmul : c * 2 ^ e = c * 2 ^ (e - s) * 2 ^ s := by
      rw [mul_assoc, ← pow_add, Nat.sub_add_cancel hse]
    rw [hmul]
    exact (Nat.lt_or_ge q _).symm.imp (Nat.mul_le_mul_right _) (Nat.mul_le_mul_right _)
  · left
    calc c * 2 ^ e ≤ 2 ^ 53 * 2 ^ e := Nat.mul_le_mul_right _ hc.le
      _ = 2 ^ 52 * 2 ^ (e + 1) := by ring
      _ ≤ q * 2 ^ s := Nat.mul_le_mul hq (Nat.pow_le_pow_right two_pos hes)

/-- Up to `2^53` units have at most 53 significant bits: a carry to `2^53` is `2^52` units of twice the size. -/
theorem mul_two_pow_has_significand {n : Nat} (s : Nat) (hn : n ≤ 2 ^ 53) :
    ∃ c e : Nat, c < 2 ^ 53 ∧ n * 2 ^ s = c * 2 ^ e := by
  obtain hlt | rfl := hn.lt_or_eq
  · exact ⟨n, s, hlt, rfl⟩
  · exact ⟨2 ^ 52, s + 1, by decide, by ring⟩

/-- The nearer end `R` of a gap around `Q` is nearest to `Q` among the numbers `v` outside the gap, and another is as
near only where `Q` is the midpoint. -/
theorem nearest_of_outside_gap {lo hi Q R v : ℤ} (hlo : lo ≤ Q) (hhi : Q ≤ hi) (hv : v ≤ lo ∨ hi ≤ v)
    (hR : R = lo ∧ Q - lo ≤ hi - Q ∨ R = hi ∧ hi - Q ≤ Q - lo) :
    |R - Q| ≤ |v - Q| ∧ (v ≠ R → |R - Q| = |v - Q| → Q - lo = hi - Q) := by
  have hdv : |v - Q| = if v ≤ lo then Q - v else v - Q := by
    split
    · rw [abs_of_nonpos] <;> omega
    · rw [abs_of_nonneg]; omega
  obtain ⟨rfl, hd⟩ | ⟨rfl, hd⟩ := hR
  · rw [hdv, abs_of_nonpos (by omega)]
    omega
  · rw [hdv, abs_of_nonneg (by omega)]
    omega

/-- From 2^53 up, `rne53` picks the nearer end of the gap between neighbours of 53-bit significand around `Q`, and at
the midpoint the end that is an even number of units. -/
theorem rne53_nearer_neighbour (Q : Nat) (h : 2 ^ 53 ≤ Q) :
    ∃ q n, 2 ^ 52 ≤ q ∧ n ≤ 2 ^ 53 ∧ rne53 Q = n * 2 ^ (bitLength Q - 53) ∧
      q * 2 ^ (bitLength Q - 53) ≤ Q ∧ Q ≤ (q + 1) * 2 ^ (bitLength Q - 53) ∧
      (n = q ∧ 2 * Q ≤ (2 * q + 1) * 2 ^ (bitLength Q - 53) ∨
        n = q + 1 ∧ (2 * q + 1) * 2 ^ (bitLength Q - 53) ≤ 2 * Q) ∧
      (2 * Q = (2 * q + 1) * 2 ^ (bitLength Q - 53) → n % 2 = 0) := by
  obtain ⟨s, q, r, hs, hs0, hq, hq', hQ, hr, hcase⟩ := rne53_cases Q h
  obtain rfl : s = bitLength Q - 53 := by omega
  have hunit : 2 ^ (bitLength Q - 53) = 2 * 2 ^ (bitLength Q - 53 - 1) := by
    rw [← pow_succ', Nat.sub_add_cancel (Nat.pos_of_ne_zero hs0)]
  have hhi : (q + 1) * 2 ^ (bitLength Q - 53) = q * 2 ^ (bitLength Q - 53) + 2 ^ (bitLength Q - 53) := by ring
  have hmid : (2 * q + 1) * 2 ^ (bitLength Q - 53) =
      2 * (q * 2 ^ (bitLength Q - 53)) + 2 ^ (bitLength Q - 53) := by ring
  obtain ⟨hR, hside⟩ | ⟨hR, hside⟩ := hcase
  · exact ⟨q, q, hq, hq'.le, hR, by omega, by omega, .inl ⟨rfl, by omega⟩, by omega⟩
  · exact ⟨q, q + 1, hq, hq', hR, by omega, by omega, .inr ⟨rfl, by omega⟩, by omega⟩

/-- The result has at most 53 significant bits. -/
theorem rne53_has_significand (Q : Nat) : ∃ c e : Nat, c < 2 ^ 53 ∧ rne53 Q = c * 2 ^ e := by
  obtain hlt | hge := Nat.lt_or_ge Q (2 ^ 53)
  · exact ⟨Q, 0, hlt, by rw [rne53_below Q hlt, pow_zero, mul_one]⟩
  · obtain ⟨q, n, -, hn, hR, -⟩ := rne53_nearer_neighbour Q hge
    rw [hR]
    exact mul_two_pow_has_significand _ hn

/-- No number of at most 53 significant bits is nearer to `Q` than `rne53 Q`, and where another is as near the result's
significand is even. -/
theorem rne53_nearest (Q c e : Nat) (hc : c < 2 ^ 53) :
    |(rne53 Q : ℤ) - Q| ≤ |((c * 2 ^ e : Nat) : ℤ) - Q| ∧
    (c * 2 ^ e ≠ rne53 Q → |(rne53 Q : ℤ) - Q| = |((c * 2 ^ e : Nat) : ℤ) - Q| →
      rne53 Q / 2 ^ (bitLength Q - 53) % 2 = 0) := by
  obtain hlt | hge := Nat.lt_or_ge Q (2 ^ 53)
  · rw [rne53_below Q hlt, sub_self, abs_zero]
    refine ⟨abs_nonneg _, fun hne hd => absurd ?_ hne⟩
    exact_mod_cast sub_eq_zero.mp (abs_eq_zero.mp hd.symm)
  · obtain ⟨q, n, hq, -, hR, hlo, hhi, hnear, htie⟩ := rne53_nearer_neighbour Q hge
    have hout := mul_two_pow_outside_gap (s := bitLength Q - 53) (e := e) hq hc
    rw [hR, Nat.mul_div_cancel _ (Nat.two_pow_pos _)]
    generalize 2 ^ (bitLength Q - 53) = u at *
    generalize c * 2 ^ e = v at *
    have hend : (q + 1) * u = q * u + u := by ring
    have hmid : (2 * q + 1) * u = 2 * (q * u) + u := by ring
    have hends : ((n * u : Nat) : ℤ) = (q * u : Nat) ∧ (Q : ℤ) - (q * u : Nat) ≤ ((q + 1) * u : Nat) - Q ∨
        ((n * u : Nat) : ℤ) = ((q + 1) * u : Nat) ∧ (((q + 1) * u : Nat) : ℤ) - Q ≤ Q - (q * u : Nat) := by
      obtain ⟨rfl, hd⟩ | ⟨rfl, hd⟩ := hnear
      · exact .inl ⟨rfl, by omega⟩
      · exact .inr ⟨rfl, by omega⟩
    obtain ⟨hle, heq⟩ := nearest_of_outside_gap (v := v) (by omega) (by omega) (by omega) hends
    refine ⟨hle, fun hne hd => htie ?_⟩
    have := heq (by omega) hd
    omega

/-- Settles O31: `rne53` picks the nearer neighbour of `Q`, and no number of 53 significant bits lies between them. -/
theorem roundingIsToNearestEven : Obligations.RoundingIsToNearestEven := by
  unfold Obligations.RoundingIsToNearestEven
  intro Q _
  exact ⟨rne53_has_significand Q, rne53_nearest Q, rne53_below Q⟩

end Sys2Proof.Machine
end

section
/-! What the decoder makes of the encodings, and which words are `seed` (spec/30_encoding.md R61, R66). -/

namespace Sys2Proof

/-- No bit of an encoding is dropped (R66). -/
@[simp] theorem decode_encode (i : Instr) : decode (encode i) = .ok i := by
  cases i <;> simp [decode, encode]

/-- The words with `op` 0b00 are the encodings of `seed` (R61). -/
theorem decode_eq_seed_iff (w : CommandWord) (v : Word) :
    decode w = .ok (.seed v) ↔ opField w = 0b00#2 ∧ argField w = v := by
  constructor
  · unfold decode
    split
    next hop => exact fun h => ⟨BitVec.eq_of_toNat_eq hop, by simpa using h⟩
    next => split <;> simp
    next => split <;> simp
    next => simp
  · rintro ⟨hop, rfl⟩
    simp [decode, hop]

end Sys2Proof
end

section
/-! What a command word and a step that answer `t` have done to the block, said once: the invariants of
spec/10_state.md R21, R23 and R24 are read off these cases. -/

namespace Sys2Proof.Machine

/-- A word that decodes runs its command. -/
theorem runCommand_of_decode {w : CommandWord} {i : Instr} (h : decode w = .ok i) (s : State) :
    runCommand w s = exec i (accept w s) := by
  simp [runCommand, h]

/-- A command word is recorded as accepted, and either seeds the block, or draws from it once, or leaves it as it
was (R21, R156). -/
theorem runCommand_next_cases {w : CommandWord} {s t : State} (h : runCommand w s = .next t) :
    t.accepted = s.accepted ++ [w] ∧
    ((∃ v, decode w = .ok (.seed v) ∧ t.block = seedBlock v s.block) ∨
     (∃ i, decode w = .ok i ∧ i.isDraw = true ∧ s.block.seeded = true ∧ t.block = (drawRaw s.block).2) ∨
     ((∀ v, decode w ≠ .ok (.seed v)) ∧ t.block = s.block)) := by
  obtain ⟨v, hd, hr⟩ | ⟨i, hd, hi, hs, hr⟩ | ⟨i, hd, hi, -, hr⟩ | ⟨hd, hr⟩ := runCommand_cases w s
  all_goals obtain rfl := Host.Outcome.next.inj (hr.symm.trans h)
  · exact ⟨rfl, .inl ⟨v, hd, rfl⟩⟩
  · exact ⟨rfl, .inr (.inl ⟨i, hd, hi, hs, rfl⟩)⟩
  · refine ⟨rfl, .inr (.inr ⟨fun v hv => ?_, rfl⟩)⟩
    obtain rfl : i = .seed v := Except.ok.inj (hd.symm.trans hv)
    cases hi
  · exact ⟨rfl, .inr (.inr ⟨by simp [hd], rfl⟩)⟩

/-- A step that answers `t` was idle, ran a command word, or took a reset. -/
theorem step_next_cases {s t : State} (h : step s = .next t) :
    t = s ∨
    (∃ w rest, s.inbox = .command w :: rest ∧ runCommand w { s with inbox := rest } = .next t) ∨
    (∃ e rest, s.inbox = e :: rest ∧ (∀ w, e ≠ .command w) ∧ t = takeReset { s with inbox := rest }) := by
  obtain ⟨-, hs⟩ | ⟨w, rest, hb, hs⟩ | ⟨e, rest, hb, he, hs⟩ := step_cases s
  · exact .inl (Host.Outcome.next.inj (h.symm.trans hs))
  · exact .inr (.inl ⟨w, rest, hb, hs.symm.trans h⟩)
  · exact .inr (.inr ⟨e, rest, hb, he, Host.Outcome.next.inj (h.symm.trans hs)⟩)

@[simp] theorem seedBlock_cur_val (v : Word) (b : Block) : (seedBlock v b).cur.val = 624 := rfl

@[simp] theorem afterReset_cur_val (epoch : Nat) : (Block.afterReset epoch).cur.val = 625 := rfl

/-- A command word leaves the block unseeded exactly when it found it so and is no `seed`: the command form of R23
and R24. -/
theorem runCommand_cur_unseeded_iff {w : CommandWord} {s t : State} (h : runCommand w s = .next t) :
    t.block.cur.val = 625 ↔ s.block.cur.val = 625 ∧ opField w ≠ 0b00#2 := by
  obtain ⟨-, ⟨v, hd, hb⟩ | ⟨i, -, -, hs, hb⟩ | ⟨hd, hb⟩⟩ := runCommand_next_cases h
  · have hop := ((decode_eq_seed_iff w v).mp hd).1
    simp [hb, hop]
  · have hcur := (seeded_iff s.block).mp hs
    have hrange := drawRaw_cur_range s.block
    rw [hb]
    omega
  · have hop : opField w ≠ 0b00#2 := fun hop => hd _ ((decode_eq_seed_iff w _).mpr ⟨hop, rfl⟩)
    simp [hb, hop]

/-- A command word that changes a word of `x` is a `seed`, or a draw that twists (R21). -/
theorem runCommand_writes_x {w : CommandWord} {s t : State} (h : runCommand w s = .next t)
    (hx : t.block.x ≠ s.block.x) :
    (∃ v, decode w = .ok (.seed v)) ∨
    (∃ i, decode w = .ok i ∧ i.isDraw = true ∧ s.block.cur.val = 624) := by
  obtain ⟨-, ⟨v, hd, -⟩ | ⟨i, hd, hi, hs, hb⟩ | ⟨-, hb⟩⟩ := runCommand_next_cases h
  · exact .inl ⟨v, hd⟩
  · have hcur := (seeded_iff s.block).mp hs
    have htwist : ¬ s.block.cur.val < 624 := fun hlt => hx (by rw [hb, drawRaw_below _ hlt])
    exact .inr ⟨i, hd, hi, by omega⟩
  · exact absurd (congrArg Block.x hb) hx

/-- Settles O50: a command word unseeds nothing and seeds exactly when its `op` is 0b00; a reset unseeds and empties
the record. -/
theorem stepKeepsUnseededUntilSeed : Obligations.StepKeepsUnseededUntilSeed := by
  unfold Obligations.StepKeepsUnseededUntilSeed
  intro s t hs h
  obtain rfl | ⟨w, rest, -, hr⟩ | ⟨e, rest, -, -, rfl⟩ := step_next_cases h
  · exact hs
  · have hacc := (runCommand_next_cases hr).1
    have hcur := runCommand_cur_unseeded_iff hr
    simp only [State.UnseededUntilSeed] at hs ⊢
    simp [hcur, hacc, hs, or_imp, forall_and]
  · simp [State.UnseededUntilSeed]

/-- Settles O29: the only command words that write `x` are `seed` and a draw at the cursor 624. -/
theorem onlySeedTwistAndResetWriteX : Obligations.OnlySeedTwistAndResetWriteX := by
  unfold Obligations.OnlySeedTwistAndResetWriteX
  intro s t h hx
  obtain rfl | ⟨w, rest, hb, hr⟩ | ⟨e, rest, hb, he, -⟩ := step_next_cases h
  · exact absurd rfl hx
  · refine ⟨_, rest, hb, ?_⟩
    obtain ⟨v, hd⟩ | ⟨i, hd, hi, hcur⟩ := runCommand_writes_x hr hx
    · exact .inl ⟨w, v, rfl, hd⟩
    · exact .inr (.inl ⟨w, i, rfl, hd, hi, hcur⟩)
  · exact ⟨e, rest, hb, .inr (.inr he)⟩

/-- Settles O30: a command word leaves 625 only where it found 625. -/
theorem onlyResetUnseeds : Obligations.OnlyResetUnseeds := by
  unfold Obligations.OnlyResetUnseeds
  intro s t h hcur
  obtain rfl | ⟨w, rest, -, hr⟩ | ⟨e, rest, hb, he, rfl⟩ := step_next_cases h
  · exact .inl hcur
  · have hne : t.block.cur.val ≠ 625 := fun ht => by
      have hs : s.block.cur.val = 625 := ((runCommand_cur_unseeded_iff hr).mp ht).1
      omega
    exact .inl (by omega)
  · exact .inr ⟨rfl, e, rest, hb, he⟩

end Sys2Proof.Machine
end

section
/-! The block as a function of the seed and the draw count (spec/10_state.md R31): `seed` writes the vector of the
recurrence over whatever stood there (R82), and each draw moves the closed form one place. -/

namespace Sys2Proof.Machine

/-- After `k` passes of the seed loop the words up to `k` are those of the recurrence, whatever the vector was. -/
theorem seedLoop_getElem (v : Word) (x : StateVector) :
    ∀ (k : Nat) (h : k < 624) (j : Nat) (hj : j ≤ k),
      (seedLoop (x.set 0 v) k h)[j] = seedWord v j
  | 0, _, j, hj => by
    obtain rfl : j = 0 := by omega
    simp [seedLoop, seedWord]
  | k + 1, h, j, hj => by
    have ih := seedLoop_getElem v x k (by omega)
    rw [seedLoop, seedStep_getElem]
    split
    next hk =>
      subst hk
      rw [ih k le_rfl, seedWord]
    next hk => exact ih j (by omega)

/-- `seed v` leaves `SeedVec(v)`, whatever it is written over (R82). -/
theorem seedVector_eq_seedVec (v : Word) (x : StateVector) : seedVector v x = seedVec v := by
  apply Vector.ext
  intro j hj
  unfold seedVector seedVec
  rw [seedLoop_getElem v x 623 _ j (by omega), Vector.getElem_ofFn]

theorem cursorAfterDraws_succ (k : Nat) : cursorAfterDraws (k + 1) = k % 624 + 1 := by
  simp [cursorAfterDraws]

theorem cursorAfterDraws_le (k : Nat) : cursorAfterDraws k ≤ 624 := by
  cases k with
  | zero => exact le_rfl
  | succ k =>
    rw [cursorAfterDraws_succ]
    omega

/-- The block after `seed v` and `k` draws, in the closed form of R31. -/
def blockAfterDraws (v : Word) (k : Nat) : Block :=
  { x := twists (twistsAfterDraws k) (seedVec v),
    cur := ⟨cursorAfterDraws k, Nat.lt_succ_of_le (Nat.le_succ_of_le (cursorAfterDraws_le k))⟩ }

@[simp] theorem blockAfterDraws_x (v : Word) (k : Nat) :
    (blockAfterDraws v k).x = twists (twistsAfterDraws k) (seedVec v) := rfl

@[simp] theorem blockAfterDraws_cur_val (v : Word) (k : Nat) :
    (blockAfterDraws v k).cur.val = cursorAfterDraws k := rfl

theorem seedBlock_eq_blockAfterDraws (v : Word) (b : Block) : seedBlock v b = blockAfterDraws v 0 := by
  rw [seedBlock, seedVector_eq_seedVec]
  rfl

theorem blockAfterDraws_seeded (v : Word) (k : Nat) : (blockAfterDraws v k).seeded = true := by
  have := cursorAfterDraws_le k
  rw [seeded_iff, blockAfterDraws_cur_val]
  omega

/-- Below 624 the next draw advances the cursor and owes no twist. -/
theorem afterDraws_succ_of_lt {k : Nat} (h : cursorAfterDraws k < 624) :
    cursorAfterDraws (k + 1) = cursorAfterDraws k + 1 ∧ twistsAfterDraws (k + 1) = twistsAfterDraws k := by
  cases k with
  | zero => exact absurd h (lt_irrefl 624)
  | succ k =>
    simp only [cursorAfterDraws_succ, twistsAfterDraws] at *
    omega

/-- At 624 the next draw leaves the cursor at 1, after one more twist. -/
theorem afterDraws_succ_of_eq {k : Nat} (h : cursorAfterDraws k = 624) :
    cursorAfterDraws (k + 1) = 1 ∧ twistsAfterDraws (k + 1) = twistsAfterDraws k + 1 := by
  cases k with
  | zero => exact ⟨rfl, rfl⟩
  | succ k =>
    simp only [cursorAfterDraws_succ, twistsAfterDraws] at *
    omega

/-- A draw moves the closed form of R31 one place. -/
theorem drawRaw_blockAfterDraws (v : Word) (k : Nat) :
    (drawRaw (blockAfterDraws v k)).2 = blockAfterDraws v (k + 1) := by
  obtain hlt | heq := (cursorAfterDraws_le k).lt_or_eq
  · obtain ⟨hcur, htw⟩ := afterDraws_succ_of_lt hlt
    rw [drawRaw_below _ hlt]
    simp [blockAfterDraws, hcur, htw]
  · obtain ⟨hcur, htw⟩ := afterDraws_succ_of_eq heq
    rw [drawRaw_twists _ heq.ge]
    simp [blockAfterDraws, hcur, htw, twists]

/-- A draw command on a seeded block is one whole draw (R91, R93). -/
theorem runCommand_draw {i : Instr} {s : State} (hi : i.isDraw = true) (hs : s.block.seeded = true) :
    runCommand (encode i) s =
      .next (complete (drawRaw s.block).2 (Instr.form i (temper (drawRaw s.block).1)) (accept (encode i) s)) := by
  rw [runCommand_of_decode (decode_encode i), exec_draw i _ hi]
  simp [draw, hs]

/-- Draws of any kinds move the closed form of R31 as many places as there are draws (R92). -/
theorem runCommands_draws (v : Word) (ds : List Instr) (hds : ∀ d ∈ ds, d.isDraw = true) :
    ∀ (k : Nat) (s : State), s.block = blockAfterDraws v k →
      ∃ t, runCommands (ds.map encode) s = some t ∧ t.block = blockAfterDraws v (k + ds.length) := by
  induction ds with
  | nil => exact fun k s hs => ⟨s, rfl, hs⟩
  | cons d ds ih =>
    intro k s hs
    obtain ⟨hd, hds⟩ := List.forall_mem_cons.mp hds
    have hseeded : s.block.seeded = true := hs ▸ blockAfterDraws_seeded v k
    obtain ⟨t, ht, hb⟩ := ih hds (k + 1)
      (complete (drawRaw s.block).2 (Instr.form d (temper (drawRaw s.block).1)) (accept (encode d) s))
      (by rw [complete_block, hs, drawRaw_blockAfterDraws])
    refine ⟨t, ?_, ?_⟩
    · rw [List.map_cons, runCommands, runCommand_draw hd hseeded]
      exact ht
    · rw [hb, List.length_cons, Nat.add_right_comm, Nat.add_assoc]

/-- Settles O26: `seed v` leaves the closed form of R31 at 0 draws, and each draw moves it one place. -/
theorem blockAfterSeedAndDraws : Obligations.BlockAfterSeedAndDraws := by
  unfold Obligations.BlockAfterSeedAndDraws
  intro v ds s hds
  obtain ⟨t, ht, hb⟩ := runCommands_draws v ds hds 0
    (complete (seedBlock v s.block) 0#64 (accept (encode (.seed v)) s))
    (seedBlock_eq_blockAfterDraws v s.block)
  refine ⟨t, ?_, ?_, ?_⟩
  · rw [runCommands, runCommand_of_decode (decode_encode _)]
    exact ht
  · rw [hb, blockAfterDraws_cur_val, Nat.zero_add, cursorAfterDraws]
  · rw [hb, blockAfterDraws_x, Nat.zero_add, twistsAfterDraws]

end Sys2Proof.Machine
end

section
/-! The fixed values of spec/10_state.md: the table `MAG01` (R28) and the state right after reset (R29). -/

namespace Sys2Proof.Machine

/-- The AND-gate form of R28: a one-bit index, extended and negated, is the mask that keeps `MATRIX_A` or nothing. -/
theorem mag01_eq_and_neg (b : BitVec 1) : mag01 b = 0x9908B0DF#32 &&& (0#32 - b.setWidth 32) := by
  revert b
  decide

/-- Settles O14: two table entries read off, and the AND-gate form. -/
theorem mag01Entries : Obligations.Mag01Entries :=
  ⟨rfl, rfl, mag01_eq_and_neg⟩

/-- Settles O45: each clause is a field of the reset state. -/
theorem resetState : Obligations.ResetState :=
  ⟨rfl, rfl, rfl, rfl⟩

/-- Settles O52: nothing has been accepted or answered, so no `seed` has, and there is nothing to replay. -/
theorem invariantsHoldAtReset : Obligations.InvariantsHoldAtReset := by
  unfold Obligations.InvariantsHoldAtReset
  refine ⟨?_, ?_, ?_⟩
  · exact rfl
  · exact iff_of_true rfl fun w hw => absurd hw List.not_mem_nil
  · exact rfl

end Sys2Proof.Machine
end

section
/-! A command word takes nothing from the host port's record and reads nothing of it (spec/20_memory.md R47): a run is
the same whatever the host is to issue next, so the accepted words replay to the state they made. -/

namespace Sys2Proof.Machine

/-- Settles O42: in each of the four cases of a command word one response is recorded, and the two that raise leave the
block. -/
theorem oneAnswerAndErrorsWriteNothing : Obligations.OneAnswerAndErrorsWriteNothing := by
  unfold Obligations.OneAnswerAndErrorsWriteNothing
  intro w s
  obtain ⟨v, -, hr⟩ | ⟨i, -, -, -, hr⟩ | ⟨i, -, -, -, hr⟩ | ⟨-, hr⟩ := runCommand_cases w s
  · exact ⟨_, .ok _, hr, rfl, rfl, rfl, rfl, fun hok => absurd rfl hok⟩
  · exact ⟨_, .ok _, hr, rfl, rfl, rfl, rfl, fun hok => absurd rfl hok⟩
  · exact ⟨_, .raised .unseeded, hr, rfl, rfl, rfl, rfl, fun _ => rfl⟩
  · exact ⟨_, .raised .illegal, hr, rfl, rfl, rfl, rfl, fun _ => rfl⟩

/-- A command word keeps the host port's record but for the word it accepts. -/
theorem runCommand_next_frame {w : CommandWord} {s t : State} (h : runCommand w s = .next t) :
    t.accepted = s.accepted ++ [w] ∧ t.inbox = s.inbox ∧ t.epoch = s.epoch := by
  obtain ⟨t', r, hr, hacc, -, hinbox, hepoch, -⟩ := oneAnswerAndErrorsWriteNothing w s
  obtain rfl := Host.Outcome.next.inj (hr.symm.trans h)
  exact ⟨hacc, hinbox, hepoch⟩

theorem draw_withInbox (form : Word → DataWord) (s : State) (es : List HostEvent) :
    draw form { s with inbox := es } = { draw form s with inbox := es } := by
  obtain ⟨hs, h⟩ | ⟨hs, h⟩ := draw_cases form s
  · rw [h, draw, if_pos hs]
    rfl
  · rw [h, draw, if_neg (by simp [hs])]
    rfl

/-- A command reads nothing of what the host is to issue next. -/
theorem exec_withInbox {i : Instr} {s t : State} (h : exec i s = .next t) (es : List HostEvent) :
    exec i { s with inbox := es } = .next { t with inbox := es } := by
  cases hi : i.isDraw with
  | true =>
    rw [exec_draw i _ hi] at h ⊢
    obtain rfl := Host.Outcome.next.inj h
    rw [draw_withInbox]
  | false =>
    cases i with
    | seed v =>
      obtain rfl := Host.Outcome.next.inj h
      rfl
    | nextU32 => cases hi
    | nextF64 => cases hi
    | nextBoundedU32 m => cases hi

/-- A command word's run reads nothing of what the host is to issue next. -/
theorem runCommand_withInbox {w : CommandWord} {s t : State} (h : runCommand w s = .next t)
    (es : List HostEvent) :
    runCommand w { s with inbox := es } = .next { t with inbox := es } := by
  cases hd : decode w with
  | ok i =>
    rw [runCommand_of_decode hd] at h ⊢
    exact exec_withInbox h es
  | error e =>
    cases e
    simp only [runCommand, hd] at h ⊢
    obtain rfl := Host.Outcome.next.inj h
    rfl

/-- A run of a first word and more is that word's run, then the others'. -/
theorem runCommands_cons_eq_some {w : CommandWord} {ws : List CommandWord} {s t : State} :
    runCommands (w :: ws) s = some t ↔ ∃ u, runCommand w s = .next u ∧ runCommands ws u = some t := by
  cases h : runCommand w s <;> simp [runCommands, h]

/-- A run continued by one word. -/
theorem runCommands_concat {w : CommandWord} {t u : State} (hw : runCommand w u = .next t) :
    ∀ (ws : List CommandWord) (s : State), runCommands ws s = some u → runCommands (ws ++ [w]) s = some t
  | [], s, h => by
    obtain rfl := Option.some.inj h
    exact runCommands_cons_eq_some.mpr ⟨t, hw, rfl⟩
  | v :: ws, s, h => by
    obtain ⟨r, hv, hr⟩ := runCommands_cons_eq_some.mp h
    exact runCommands_cons_eq_some.mpr ⟨r, hv, runCommands_concat hw ws r hr⟩

/-- A run of command words reads nothing of what the host is to issue next. -/
theorem runCommands_withInbox (es : List HostEvent) {t : State} :
    ∀ (ws : List CommandWord) (s : State), runCommands ws s = some t →
      runCommands ws { s with inbox := es } = some { t with inbox := es }
  | [], s, h => by
    obtain rfl := Option.some.inj h
    rfl
  | w :: ws, s, h => by
    obtain ⟨u, hw, hu⟩ := runCommands_cons_eq_some.mp h
    exact runCommands_cons_eq_some.mpr ⟨_, runCommand_withInbox hw es, runCommands_withInbox es ws u hu⟩

/-- A command word taken off the host port extends the replay by itself. -/
theorem replays_of_runCommand {w : CommandWord} {rest : List HostEvent} {s t : State} (hs : s.Replays)
    (h : runCommand w { s with inbox := rest } = .next t) : t.Replays := by
  obtain ⟨hacc, hinbox, hepoch⟩ := runCommand_next_frame h
  unfold State.Replays at hs ⊢
  rw [hacc, hinbox, hepoch]
  have hreplay := runCommands_withInbox rest _ _ hs
  exact runCommands_concat h _ _ hreplay

/-- Settles O51: an idle step changes nothing, a command word extends the replay by itself, and a reset leaves nothing
to replay. -/
theorem stepKeepsReplays : Obligations.StepKeepsReplays := by
  unfold Obligations.StepKeepsReplays
  intro s t hs h
  obtain rfl | ⟨w, rest, -, hr⟩ | ⟨e, rest, -, -, rfl⟩ := step_next_cases h
  · exact hs
  · exact replays_of_runCommand hs hr
  · exact rfl

/-- A command word at the head of the host port runs on the state without it. -/
theorem step_of_command {s : State} {w : CommandWord} {rest : List HostEvent} (h : s.inbox = .command w :: rest) :
    step s = runCommand w { s with inbox := rest } := by
  simp only [step, h, handleEvent]

/-- Settles O5: the step runs the word, and the word runs its command once accepted. -/
theorem stepRunsTheDecodedCommand : Obligations.StepRunsTheDecodedCommand := by
  unfold Obligations.StepRunsTheDecodedCommand
  intro s w rest i hb hd
  calc step s = runCommand w { s with inbox := rest } := step_of_command hb
    _ = exec i (accept w { s with inbox := rest }) := runCommand_of_decode hd _

end Sys2Proof.Machine
end

section
/-! Which commands are idempotent (spec/20_memory.md R45): `seed` overwrites the whole block, and a draw always moves
the cursor. -/

namespace Sys2Proof.Machine

/-- The block after `seed v` does not depend on the block before it (R82). -/
theorem seedBlock_eq_seedBlock (v : Word) (b c : Block) : seedBlock v b = seedBlock v c := by
  rw [seedBlock_eq_blockAfterDraws, seedBlock_eq_blockAfterDraws]

theorem drawRaw_cur_ne (b : Block) : (drawRaw b).2.cur ≠ b.cur := by
  rw [Ne, Fin.ext_iff]
  by_cases h : b.cur.val < 624
  · rw [drawRaw_below b h]
    exact Nat.succ_ne_self _
  · rw [drawRaw_twists b (Nat.not_lt.mp h)]
    exact (Nat.lt_of_lt_of_le (show 1 < 624 by decide) (Nat.not_lt.mp h)).ne

/-- Settles O9: the second `seed` writes the block of the first, and a draw leaves another cursor. -/
theorem seedIsIdempotentAndDrawsAreNot : Obligations.SeedIsIdempotentAndDrawsAreNot := by
  unfold Obligations.SeedIsIdempotentAndDrawsAreNot
  constructor
  · intro v s t u ht hu
    obtain rfl := Host.Outcome.next.inj ht
    obtain rfl := Host.Outcome.next.inj hu
    exact seedBlock_eq_seedBlock v _ _
  · intro i s hi hcur
    have hs : s.block.seeded = true := (seeded_iff s.block).mpr hcur
    refine ⟨_, exec_draw i s hi, ?_⟩
    rw [draw, if_pos hs, complete_block]
    exact drawRaw_cur_ne s.block

end Sys2Proof.Machine
end

section
/-! A bus delivers words intact (spec/20_memory.md R42): each byte goes back to its lane, whatever the order, and the
lanes are the digits of the word in base 256. -/

namespace Sys2Proof.Machine

theorem byteLane_toNat {b : Nat} (w : BitVec b) (i : Nat) : (byteLane w i).toNat = w.toNat / 256 ^ i % 256 := by
  rw [byteLane, BitVec.extractLsb'_toNat, Nat.shiftRight_eq_div_pow, pow_mul]
  norm_num

theorem lanesValue_congr {f g : Nat → BitVec 8} :
    ∀ k, (∀ i < k, f i = g i) → lanesValue f k = lanesValue g k
  | 0, _ => rfl
  | k + 1, h => by
    rw [lanesValue, lanesValue, h k (Nat.lt_succ_self k),
      lanesValue_congr k fun i hi => h i (Nat.lt_succ_of_lt hi)]

/-- The first `k` byte lanes of a word are its value modulo `256 ^ k`. -/
theorem lanesValue_byteLane {b : Nat} (w : BitVec b) : ∀ k, lanesValue (byteLane w) k = w.toNat % 256 ^ k
  | 0 => (Nat.mod_one _).symm
  | k + 1 => by
    rw [lanesValue, lanesValue_byteLane w k, byteLane_toNat, Nat.mod_pow_succ, Nat.mul_comm]

/-- Whatever the lane order, byte `i` comes back to lane `i`. -/
theorem carry_getElem_symm {b n : Nat} (order : Equiv.Perm (Fin n)) (w : BitVec b) (i : Fin n) :
    (carry order w)[(order.symm i).val] = byteLane w i.val := by
  simp [carry]

/-- A bus of any lane order with room for the whole word delivers it intact. -/
theorem gather_carry {n b : Nat} (order : Equiv.Perm (Fin n)) (w : BitVec b) (hb : b ≤ 8 * n) :
    gather b order (carry order w) = w := by
  have hlanes : ∀ i < n,
      (if h : i < n then (carry order w)[(order.symm ⟨i, h⟩).val] else 0#8) = byteLane w i := by
    intro i hi
    rw [dif_pos hi, carry_getElem_symm]
  have hfits : w.toNat < 256 ^ n :=
    calc w.toNat < 2 ^ b := w.isLt
      _ ≤ 2 ^ (8 * n) := Nat.pow_le_pow_right two_pos hb
      _ = 256 ^ n := pow_mul 2 8 n
  rw [gather, lanesValue_congr n hlanes, lanesValue_byteLane, Nat.mod_eq_of_lt hfits, BitVec.ofNat_toNat,
    BitVec.setWidth_eq]

/-- Settles O55: the open lane orders are two of the orders a bus may have, and both words fit their lanes. -/
theorem busDeliversWordsIntact : Obligations.BusDeliversWordsIntact := by
  unfold Obligations.BusDeliversWordsIntact
  exact ⟨fun _ _ => gather_carry, fun w => gather_carry _ w (by decide), fun w => gather_carry _ w (by decide)⟩

end Sys2Proof.Machine
end

section
/-! Decoding and encoding are inverse (spec/30_encoding.md R66): a word is the encoding of a command, or else it is
reserved (R65). -/

namespace Sys2Proof

theorem opField_cases (w : CommandWord) :
    opField w = 0b00#2 ∨ opField w = 0b01#2 ∨ opField w = 0b10#2 ∨ opField w = 0b11#2 := by
  generalize opField w = op
  revert op
  decide

/-- The decoder refuses exactly the reserved words of R65. -/
theorem decode_eq_error_iff (w : CommandWord) :
    decode w = .error .reservedEncoding ↔ (opField w = 0b01#2 ∨ opField w = 0b10#2) ∧ argField w ≠ 0#32 := by
  obtain hop | hop | hop | hop := opField_cases w
  all_goals simp [decode, hop]

/-- A word that is not reserved is the encoding of a command: its `op` names the command and its `arg` the operand. -/
theorem exists_eq_encode {w : CommandWord}
    (h : ¬((opField w = 0b01#2 ∨ opField w = 0b10#2) ∧ argField w ≠ 0#32)) : ∃ i, w = encode i := by
  have hfields := (commandWord_fields w).symm
  obtain hop | hop | hop | hop := opField_cases w
  all_goals rw [hop] at hfields
  · exact ⟨.seed (argField w), hfields⟩
  · have harg : argField w = 0#32 := by simpa [hop] using h
    exact ⟨.nextU32, by rwa [harg] at hfields⟩
  · have harg : argField w = 0#32 := by simpa [hop] using h
    exact ⟨.nextF64, by rwa [harg] at hfields⟩
  · exact ⟨.nextBoundedU32 (argField w), hfields⟩

theorem decode_eq_ok_iff (w : CommandWord) (i : Instr) : decode w = .ok i ↔ w = encode i := by
  constructor
  · intro hd
    have hlegal : ¬((opField w = 0b01#2 ∨ opField w = 0b10#2) ∧ argField w ≠ 0#32) := by
      rw [← decode_eq_error_iff, hd]
      exact nofun
    obtain ⟨j, rfl⟩ := exists_eq_encode hlegal
    rw [Except.ok.inj ((decode_encode j).symm.trans hd)]
  · rintro rfl
    exact decode_encode i

/-- Settles O1: a word that decodes is not reserved, so it is an encoding, and an encoding decodes to its command. -/
theorem decodeIsInverseOfEncode : Obligations.DecodeIsInverseOfEncode := decode_eq_ok_iff

/-- Settles O4: the first six words are encodings, the last three are reserved. -/
theorem writtenOutWordsDecode : Obligations.WrittenOutWordsDecode :=
  ⟨decode_encode (.seed 5489#32), decode_encode (.seed 4294967295#32), decode_encode .nextU32,
    decode_encode .nextF64, decode_encode (.nextBoundedU32 5321#32), decode_encode (.nextBoundedU32 4294967295#32),
    (decode_eq_error_iff _).mpr (by decide), (decode_eq_error_iff _).mpr (by decide),
    (decode_eq_error_iff _).mpr (by decide)⟩

end Sys2Proof

namespace Sys2Proof.Machine

/-- A word that the decoder refuses is accepted and answered ILLEGAL, whatever the state (R152, R154). -/
theorem runCommand_of_reserved {w : CommandWord} (h : decode w = .error .reservedEncoding) (s : State) :
    runCommand w s = .next (raise .illegal (accept w s)) := by
  simp only [runCommand, h]

/-- Settles O2: the decoder refuses exactly the reserved words, and every other word is an encoding. -/
theorem reservedWordsAreAnsweredIllegal : Obligations.ReservedWordsAreAnsweredIllegal := by
  unfold Obligations.ReservedWordsAreAnsweredIllegal
  intro w
  constructor
  · intro hres
    have hd := (decode_eq_error_iff w).mpr hres
    exact ⟨hd, runCommand_of_reserved hd⟩
  · intro hlegal
    obtain ⟨i, rfl⟩ := exists_eq_encode hlegal
    exact ⟨i, decode_encode i⟩

/-- Settles O49: an idle step changes nothing, a command word adds one to both records, and a reset empties both. -/
theorem stepKeepsOneResponsePerCommand : Obligations.StepKeepsOneResponsePerCommand := by
  unfold Obligations.StepKeepsOneResponsePerCommand
  intro s t hs h
  obtain rfl | ⟨w, rest, -, hr⟩ | ⟨e, rest, -, -, rfl⟩ := step_next_cases h
  · exact hs
  · obtain ⟨t', r, hr', hacc, hresp, -⟩ := oneAnswerAndErrorsWriteNothing w { s with inbox := rest }
    obtain rfl := Host.Outcome.next.inj (hr'.symm.trans hr)
    simpa [State.OneResponsePerCommand, hacc, hresp] using hs
  · exact rfl

end Sys2Proof.Machine
end

section
/-! The match and mask rows of the field summary (spec/30_encoding.md R67): the mask of `seed` and `next_bounded_u32`
keeps `op`, and that of the other two keeps the whole word. -/

namespace Sys2Proof

/-- A word matches a row masked to `op` exactly when it is a command word with the row's `op`. -/
theorem exists_eq_commandWord_iff (op : BitVec 2) (w : CommandWord) :
    (∃ arg, w = commandWord op arg) ↔ w &&& 0x300000000#34 = commandWord op 0#32 := by
  constructor
  · rintro ⟨arg, rfl⟩
    exact Laws.EncodesInItsRow.masked_op op arg
  · intro h
    rw [← commandWord_fields w, Laws.EncodesInItsRow.masked_op] at h
    have hop : opField w = op := by simpa using congrArg opField h
    exact ⟨argField w, by rw [← hop, commandWord_fields]⟩

theorem and_wholeWordMask (w : CommandWord) : w &&& 0x3FFFFFFFF#34 = w := BitVec.and_allOnes

theorem exists_decode_seed_iff (w : CommandWord) :
    (∃ v, decode w = .ok (.seed v)) ↔ w &&& 0x300000000#34 = 0x000000000#34 := by
  simp only [decode_eq_ok_iff]
  exact exists_eq_commandWord_iff 0b00#2 w

theorem decode_nextU32_iff (w : CommandWord) :
    decode w = .ok .nextU32 ↔ w &&& 0x3FFFFFFFF#34 = 0x100000000#34 := by
  rw [decode_eq_ok_iff, and_wholeWordMask]
  rfl

theorem decode_nextF64_iff (w : CommandWord) :
    decode w = .ok .nextF64 ↔ w &&& 0x3FFFFFFFF#34 = 0x200000000#34 := by
  rw [decode_eq_ok_iff, and_wholeWordMask]
  rfl

theorem exists_decode_nextBoundedU32_iff (w : CommandWord) :
    (∃ m, decode w = .ok (.nextBoundedU32 m)) ↔ w &&& 0x300000000#34 = 0x300000000#34 := by
  simp only [decode_eq_ok_iff]
  exact exists_eq_commandWord_iff 0b11#2 w

/-- A word that a row covers decodes to a command of the row's mnemonic. -/
theorem decode_of_covers {r : OpcodeRow} (hr : r ∈ opcodeTable) {w : CommandWord} (h : r.covers w = true) :
    ∃ i, decode w = .ok i ∧ i.mnemonic = r.mnemonic := by
  simp only [opcodeTable, List.mem_cons, List.not_mem_nil, or_false] at hr
  obtain rfl | rfl | rfl | rfl := hr
  all_goals replace h := beq_iff_eq.mp h
  · obtain ⟨v, hd⟩ := (exists_decode_seed_iff w).mpr h
    exact ⟨_, hd, rfl⟩
  · exact ⟨_, (decode_nextU32_iff w).mpr h, rfl⟩
  · exact ⟨_, (decode_nextF64_iff w).mpr h, rfl⟩
  · obtain ⟨m, hd⟩ := (exists_decode_nextBoundedU32_iff w).mpr h
    exact ⟨_, hd, rfl⟩

theorem exists_row_covers_encode (i : Instr) : ∃ r ∈ opcodeTable, r.covers (encode i) = true := by
  have hrow : Laws.EncodesInItsRow.Statement i := by
    cases i with
    | seed v => exact Laws.EncodesInItsRow.seed v
    | nextU32 => exact Laws.EncodesInItsRow.nextU32
    | nextF64 => exact Laws.EncodesInItsRow.nextF64
    | nextBoundedU32 m => exact Laws.EncodesInItsRow.nextBoundedU32 m
  obtain ⟨r, hr, -, hcov⟩ := hrow
  exact ⟨r, hr, hcov⟩

/-- No word matches two rows: it would decode to commands of two mnemonics. -/
theorem opcodeTable_pairwise_disjoint (w : CommandWord) :
    opcodeTable.Pairwise (fun a b => ¬(a.covers w = true ∧ b.covers w = true)) := by
  have hmnemonics : opcodeTable.Pairwise (fun a b => a.mnemonic ≠ b.mnemonic) := by decide
  refine hmnemonics.imp_of_mem fun ha hb hne ⟨hca, hcb⟩ => hne ?_
  obtain ⟨i, hdi, hmi⟩ := decode_of_covers ha hca
  obtain ⟨j, hdj, hmj⟩ := decode_of_covers hb hcb
  rw [← hmi, ← hmj, Except.ok.inj (hdi.symm.trans hdj)]

/-- The words that match no row are those the decoder refuses. -/
theorem no_row_covers_iff (w : CommandWord) :
    (∀ r ∈ opcodeTable, r.covers w = false) ↔ decode w = .error .reservedEncoding := by
  constructor
  · intro hnone
    by_contra hd
    obtain ⟨i, rfl⟩ := exists_eq_encode (mt (decode_eq_error_iff w).mpr hd)
    obtain ⟨r, hr, hcov⟩ := exists_row_covers_encode i
    exact Bool.false_ne_true ((hnone r hr).symm.trans hcov)
  · intro hd r hr
    by_contra hcov
    obtain ⟨i, hdi, -⟩ := decode_of_covers hr (Bool.eq_true_of_not_eq_false hcov)
    cases hd.symm.trans hdi

/-- Settles O3: the four rows one by one, their disjointness, and the words that match none. -/
theorem opcodeRowsDecideTheDecoder : Obligations.OpcodeRowsDecideTheDecoder := by
  unfold Obligations.OpcodeRowsDecideTheDecoder
  intro w
  exact ⟨exists_decode_seed_iff w, decode_nextU32_iff w, decode_nextF64_iff w, exists_decode_nextBoundedU32_iff w,
    opcodeTable_pairwise_disjoint w, no_row_covers_iff w, fun hd => ((decode_eq_error_iff w).mp hd).1⟩

end Sys2Proof
end

section
/-! The assembler and the host program lines (spec/30_encoding.md R68, R69): a line's events do not depend on the lines
around it, so a repetition stands for copies of what it encloses. -/

namespace Sys2Proof

/-- A command word is legal unless it is the reserved encoding of R65. -/
theorem commandWord_wellFormed_iff (w : CommandWord) :
    CommandWord.wellFormed w = true ↔
      ¬((opField w = 0b01#2 ∨ opField w = 0b10#2) ∧ argField w ≠ 0#32) := by
  simp [CommandWord.wellFormed, opField, argField, imp_iff_not_or]

theorem wellFormed_encode (i : Instr) : CommandWord.wellFormed (encode i) = true := by
  rw [commandWord_wellFormed_iff, ← decode_eq_error_iff, decode_encode]
  exact nofun

theorem toCommandWord_toNat (w : CommandWord) : toCommandWord w.toNat = some w := by
  rw [toCommandWord, if_pos w.isLt, BitVec.ofNat_toNat, BitVec.setWidth_eq]

end Sys2Proof

namespace Sys2Proof.Machine

/-- One assembly line alone is one command word, or the line's error. -/
theorem assemble_op (m : Mnemonic) (operand : Option Nat) :
    assemble [.op m operand] = (assembleOp m operand).map fun i => [.command (encode i)] := by
  cases h : assembleOp m operand <;> simp [assemble, assembleFrom, h, Except.map]

/-- Each form of line that assembles spells a command of its own mnemonic. -/
theorem assembleOp_mnemonic {m : Mnemonic} {operand : Option Nat} {i : Instr} :
    assembleOp m operand = .ok i → i.mnemonic = m := by
  fun_cases assembleOp m operand
  all_goals rintro ⟨⟩
  all_goals rfl

/-- An ill-formed line is an assembler error: its operand is missing, not taken, or does not fit 32 bits (R68). -/
theorem assembleOp_of_illFormed {m : Mnemonic} {operand : Option Nat}
    (h : HostLine.wellFormed (.op m operand) = false) : ∃ e, assembleOp m operand = .error e := by
  cases m with
  | seed =>
    cases operand with
    | none => exact ⟨.operandMissing, rfl⟩
    | some n => exact ⟨.operandTooLarge, if_neg (of_decide_eq_false h)⟩
  | nextU32 =>
    cases operand with
    | none => cases h
    | some n => exact ⟨.operandNotTaken, rfl⟩
  | nextF64 =>
    cases operand with
    | none => cases h
    | some n => exact ⟨.operandNotTaken, rfl⟩
  | nextBoundedU32 =>
    cases operand with
    | none => exact ⟨.operandMissing, rfl⟩
    | some n => exact ⟨.operandTooLarge, if_neg (of_decide_eq_false h)⟩

theorem assembleOp_seed_toNat (v : Word) : assembleOp .seed (some v.toNat) = .ok (.seed v) := by
  rw [assembleOp, if_pos v.isLt, BitVec.ofNat_toNat, BitVec.setWidth_eq]

theorem assembleOp_nextBoundedU32_toNat (m : Word) :
    assembleOp .nextBoundedU32 (some m.toNat) = .ok (.nextBoundedU32 m) := by
  rw [assembleOp, if_pos m.isLt, BitVec.ofNat_toNat, BitVec.setWidth_eq]

/-- The line that spells a command assembles to its word. -/
theorem assemble_toLine (i : Instr) : assemble [Instr.toLine i] = .ok [.command (encode i)] := by
  cases i with
  | seed v =>
    rw [Instr.toLine, assemble_op, assembleOp_seed_toNat]
    rfl
  | nextU32 => rfl
  | nextF64 => rfl
  | nextBoundedU32 m =>
    rw [Instr.toLine, assemble_op, assembleOp_nextBoundedU32_toNat]
    rfl

/-- Settles O53: one line alone is its command's word or its error. -/
theorem assemblyLinesSpellLegalCommands : Obligations.AssemblyLinesSpellLegalCommands := by
  unfold Obligations.AssemblyLinesSpellLegalCommands
  refine ⟨assemble_toLine, ?_, ?_⟩
  · intro m operand es h
    rw [assemble_op] at h
    cases hop : assembleOp m operand with
    | error e => rw [hop] at h; cases h
    | ok i =>
      rw [hop] at h
      exact ⟨i, assembleOp_mnemonic hop, (Except.ok.inj h).symm, wellFormed_encode i⟩
  · intro m operand hbad
    obtain ⟨e, he⟩ := assembleOp_of_illFormed hbad
    exact ⟨e, by rw [assemble_op, he]; rfl⟩

/-- Lines that assemble may stand before others and inside repetitions: they leave their events and close only
the repetitions they opened. -/
theorem assembleFrom_append {es : List HostEvent} (tail : List HostLine) (outer : List (Nat × List HostEvent))
    (lines : List HostLine) : ∀ (opened : List (Nat × List HostEvent)) (events : List HostEvent),
      assembleFrom lines opened events = .ok es →
        assembleFrom (lines ++ tail) (opened ++ outer) events = assembleFrom tail outer es := by
  induction lines with
  | nil =>
    intro opened events h
    cases opened with
    | nil =>
      obtain rfl := Except.ok.inj h
      rfl
    | cons o opened => cases h
  | cons line rest ih =>
    intro opened events h
    cases line with
    | op m operand =>
      rw [List.cons_append]
      cases hop : assembleOp m operand with
      | ok i =>
        simp only [assembleFrom, hop] at h ⊢
        exact ih _ _ h
      | error e => simp [assembleFrom, hop] at h
    | reset => exact ih _ _ h
    | cmd n =>
      rw [List.cons_append]
      cases hcmd : assembleCmd n with
      | ok e =>
        simp only [assembleFrom, hcmd] at h ⊢
        exact ih _ _ h
      | error e => simp [assembleFrom, hcmd] at h
    | rep n => exact ih _ _ h
    | endr =>
      cases opened with
      | nil => cases h
      | cons o opened => exact ih _ _ h

/-- A repetition of lines that assemble stands for copies of their events (R69). -/
theorem assemble_repetition {lines : List HostLine} {es : List HostEvent} (n : Nat) (h : assemble lines = .ok es) :
    assemble (.rep n :: lines ++ [.endr]) = .ok (List.replicate n es).flatten :=
  calc assemble (.rep n :: lines ++ [.endr])
    _ = assembleFrom (lines ++ [.endr]) ([] ++ [(n, [])]) [] := rfl
    _ = assembleFrom [.endr] [(n, [])] es := assembleFrom_append _ _ lines [] [] h

theorem assemble_cmd (w : CommandWord) : assemble [.cmd w.toNat] = .ok [.command w] := by
  simp [assemble, assembleFrom, assembleCmd, toCommandWord_toNat]

/-- Construction is the reset event before the line of its `seed` (R69). -/
theorem assemble_construction (s : Word) :
    assemble (construction s) = .ok [.reset, .command (encode (.seed s))] := by
  simp [construction, Instr.toLine, assemble, assembleFrom, assembleOp_seed_toNat]

/-- Settles O54: a repetition encloses lines that assemble alone; a raw word and a construction are short programs. -/
theorem hostNotationExpands : Obligations.HostNotationExpands := by
  unfold Obligations.HostNotationExpands
  exact ⟨fun n _ _ => assemble_repetition n, assemble_cmd, assemble_construction⟩

end Sys2Proof.Machine
end

section
/-! A fetched word is the next command (spec/30_encoding.md R60): the bits from 34 up are 0, so any fetch of 34 bits or
more gives the word itself. -/

namespace Sys2Proof

theorem commandWord_toNat_mod {nbits : Nat} (h : 34 ≤ nbits) (w : CommandWord) : w.toNat % 2 ^ nbits = w.toNat :=
  Nat.mod_eq_of_lt (w.isLt.trans_le (Nat.pow_le_pow_right two_pos h))

theorem decodeTableWord_encode {nbits : Nat} (h : 34 ≤ nbits) (i : Instr) :
    decodeTableWord nbits (encode i).toNat = some i := by
  simp [decodeTableWord, commandWord_toNat_mod h, toCommandWord_toNat, Except.toOption]

end Sys2Proof

namespace Sys2Proof.Machine

theorem withFetchWord_toNat {nbits : Nat} (h : 34 ≤ nbits) (s : State) (w : CommandWord) :
    s.withFetchWord nbits w.toNat = { s with inbox := .command w :: s.inbox } := by
  rw [State.withFetchWord, commandWord_toNat_mod h, BitVec.ofNat_toNat, BitVec.setWidth_eq]

/-- The step after a fetch accepts the placed word and runs its command. -/
theorem step_withFetchWord {nbits : Nat} (h : 34 ≤ nbits) (s : State) (i : Instr) :
    step (s.withFetchWord nbits (encode i).toNat) = exec i (accept (encode i) s) := by
  rw [withFetchWord_toNat h, step_of_command rfl]
  exact runCommand_of_decode (decode_encode i) s

/-- Settles O6: both widths hold the 34 bits of a command word. -/
theorem fetchedWordIsTheNextCommand : Obligations.FetchedWordIsTheNextCommand := by
  unfold Obligations.FetchedWordIsTheNextCommand
  intro s i
  exact ⟨decodeTableWord_encode (by decide) i, decodeTableWord_encode (by decide) i,
    step_withFetchWord (by decide) s i, step_withFetchWord (by decide) s i⟩

end Sys2Proof.Machine
end

section
/-! The fields of the response word (spec/30_encoding.md R63, R64). -/

namespace Sys2Proof.Machine

@[simp] theorem response_word_status (r : Response) : r.word.extractLsb' 64 2 = r.status :=
  BitVec.extractLsb'_append_eq_left

@[simp] theorem response_word_data (r : Response) : r.word.extractLsb' 0 64 = r.data :=
  BitVec.extractLsb'_append_eq_right

/-- The reserved status is never answered (R153). -/
theorem response_status_ne_reserved (r : Response) : r.status ≠ 0b11#2 := by
  cases r with
  | ok d => simp [Response.status]
  | raised f => cases f <;> decide

/-- A status other than OK comes with data 0 (R64). -/
theorem response_data_eq_zero {r : Response} (h : r.status ≠ 0b00#2) : r.data = 0#64 := by
  cases r with
  | ok d => exact absurd rfl h
  | raised f => rfl

/-- Settles O44: the two fields of the word are the response's status and data. -/
theorem responseWordFields : Obligations.ResponseWordFields := by
  unfold Obligations.ResponseWordFields
  intro r
  rw [response_word_status, response_word_data]
  refine ⟨rfl, rfl, response_status_ne_reserved r, response_data_eq_zero, ?_, ?_, ?_⟩
  · rintro d rfl
    exact ⟨rfl, rfl⟩
  · rintro rfl
    rfl
  · rintro rfl
    rfl

end Sys2Proof.Machine
end

section
/-! The seeded vector (spec/40_seed_expansion.md R80 to R82): its words are those of the recurrence, and the recurrence
is modulo 2^32. -/

namespace Sys2Proof.Machine

@[simp] theorem seedVec_getElem (v : Word) (i : Nat) (h : i < 624) : (seedVec v)[i] = seedWord v i := by
  unfold seedVec
  exact Vector.getElem_ofFn _

/-- The seed is the first word of its vector. -/
theorem seedVec_zero (v : Word) : (seedVec v)[0] = v := seedVec_getElem v 0 (by decide)

/-- The recurrence of R80 holds all along the vector, in the spec's numerals. -/
theorem seedVec_succ (v : Word) (i : Nat) (h : i < 623) :
    (seedVec v)[i + 1] =
      1812433253#32 * ((seedVec v)[i] ^^^ ((seedVec v)[i] >>> 30)) + BitVec.ofNat 32 (i + 1) := by
  rw [seedVec_getElem, seedVec_getElem]
  rfl

/-- The last word of R80's example, the whole recurrence run from 5489. -/
theorem seedWord_5489_last : seedWord 5489#32 623 = 0x04C46D8C#32 := by decide +kernel

/-- Settles O7: `seed v` leaves `SeedVec(v)`, whatever it is written over, and the vector meets the recurrence. -/
theorem seedResultAndFrame : Obligations.SeedResultAndFrame := by
  unfold Obligations.SeedResultAndFrame
  intro v s
  have hx : (complete (seedBlock v s.block) 0#64 s).block.x = seedVec v := seedVector_eq_seedVec v s.block.x
  refine ⟨complete (seedBlock v s.block) 0#64 s, rfl, ⟨rfl, rfl, rfl⟩, ?_, ?_, rfl, rfl, ?_⟩
  · rw [hx, seedVec_zero]
  · rw [hx]
    exact seedVec_succ v
  · rintro rfl
    rw [hx, seedVec_getElem, seedVec_getElem, seedVec_getElem, seedWord_5489_last]
    decide

/-- Settles O8: word 0 of the vector is the seed, and after a seed of 0 word 1 is 1. -/
theorem seededVectorIsAFunctionOfTheSeed : Obligations.SeededVectorIsAFunctionOfTheSeed := by
  have hone : (seedVec 0#32)[1] = 1#32 := by
    rw [seedVec_getElem]
    decide
  unfold Obligations.SeededVectorIsAFunctionOfTheSeed
  refine ⟨seedVector_eq_seedVec, ?_, ?_, hone⟩
  · intro v v' h
    rw [← seedVec_zero v, h, seedVec_zero]
  · intro v h
    obtain rfl : v = 0#32 := by rw [← seedVec_zero v, h, Vector.getElem_replicate]
    rw [h, Vector.getElem_replicate] at hone
    exact absurd hone (by decide)

/-- Bit `b` of `p ^ (p >> 30)` is bit `b` of `p`, changed by bit `b + 30` (R81). -/
theorem getLsbD_xor_shiftRight_30 (p : Word) (b : Nat) :
    (p ^^^ (p >>> 30)).getLsbD b = (p.getLsbD b ^^ p.getLsbD (30 + b)) := by
  rw [BitVec.getLsbD_xor, BitVec.getLsbD_ushiftRight]

/-- The recurrence is modulo 2^32 (R81). -/
theorem seedNext_toNat (p : Word) (i : Nat) :
    (seedNext p i).toNat = (1812433253 * (p ^^^ (p >>> 30)).toNat + i) % 2 ^ 32 := by
  rw [seedNext, BitVec.toNat_add, BitVec.toNat_mul, BitVec.toNat_ofNat, ← Nat.add_mod]
  rfl

/-- Settles O10: the bit above bit 31 that would change bit 2 or a higher one is 0. -/
theorem seedRecurrenceWraps : Obligations.SeedRecurrenceWraps := by
  unfold Obligations.SeedRecurrenceWraps
  intro p
  refine ⟨?_, getLsbD_xor_shiftRight_30 p 1, getLsbD_xor_shiftRight_30 p 0, fun i _ => seedNext_toNat p i⟩
  intro b hb
  have habove : p.getLsbD (30 + b) = false := BitVec.getLsbD_of_ge p (30 + b) (by omega)
  rw [getLsbD_xor_shiftRight_30, habove, Bool.xor_false]

end Sys2Proof.Machine
end

section
/-! What a command answers and leaves in the block is a function of its word and of the block it finds
(spec/40_seed_expansion.md R83): no earlier response, no record of the host port and no reset count is read. -/

namespace Sys2Proof.Machine

/-- A draw's response and block depend on the block alone. -/
theorem draw_reads_block_only (form : Word → DataWord) (b : Block) :
    ∃ b' r, ∀ s : State, s.block = b →
      (draw form s).block = b' ∧ (draw form s).responses = s.responses ++ [r] := by
  cases hb : b.seeded with
  | true =>
    refine ⟨(drawRaw b).2, .ok (form (temper (drawRaw b).1)), ?_⟩
    rintro s rfl
    rw [draw, if_pos hb]
    exact ⟨rfl, rfl⟩
  | false =>
    refine ⟨b, .raised .unseeded, ?_⟩
    rintro s rfl
    rw [draw, if_neg (by simp [hb])]
    exact ⟨rfl, rfl⟩

/-- A command word's response and block depend on the word and the block alone. -/
theorem runCommand_reads_block_only (w : CommandWord) (b : Block) :
    ∃ b' r, ∀ s : State, s.block = b →
      ∃ t, runCommand w s = .next t ∧ t.block = b' ∧ t.responses = s.responses ++ [r] := by
  cases hd : decode w with
  | error e =>
    cases e
    exact ⟨b, .raised .illegal, fun s hs => ⟨_, runCommand_of_reserved hd s, hs, rfl⟩⟩
  | ok i =>
    cases hi : i.isDraw with
    | true =>
      obtain ⟨b', r, hdraw⟩ := draw_reads_block_only (Instr.form i) b
      refine ⟨b', r, fun s hs => ⟨_, ?_, hdraw (accept w s) hs⟩⟩
      rw [runCommand_of_decode hd, exec_draw i _ hi]
    | false =>
      cases i with
      | seed v =>
        refine ⟨seedBlock v b, .ok 0#64, fun s hs => ⟨_, runCommand_of_decode hd s, ?_, rfl⟩⟩
        exact congrArg (seedBlock v) hs
      | nextU32 => cases hi
      | nextF64 => cases hi
      | nextBoundedU32 m => cases hi

/-- A run's responses and final block depend on its words and the first block alone. -/
theorem runCommands_reads_block_only (ws : List CommandWord) :
    ∀ b : Block, ∃ b' rs, ∀ s : State, s.block = b →
      ∃ t, runCommands ws s = some t ∧ t.block = b' ∧ t.responses = s.responses ++ rs := by
  induction ws with
  | nil => exact fun b => ⟨b, [], fun s hs => ⟨s, rfl, hs, (List.append_nil _).symm⟩⟩
  | cons w ws ih =>
    intro b
    obtain ⟨b₁, r, hw⟩ := runCommand_reads_block_only w b
    obtain ⟨b', rs, hws⟩ := ih b₁
    refine ⟨b', r :: rs, fun s hs => ?_⟩
    obtain ⟨u, hu, hub, hur⟩ := hw s hs
    obtain ⟨t, ht, htb, htr⟩ := hws u hub
    exact ⟨t, runCommands_cons_eq_some.mpr ⟨u, hu, ht⟩, htb, by rw [htr, hur, ← List.append_cons]⟩

/-- `seed v` forgets even the block it finds, so a run that starts with it depends on `v` and its words alone. -/
theorem runCommands_seed_reads_nothing (v : Word) (ws : List CommandWord) :
    ∃ b' rs, ∀ s : State, ∃ t, runCommands (encode (.seed v) :: ws) s = some t ∧ t.block = b' ∧
      t.responses = s.responses ++ rs := by
  obtain ⟨b', rs, hws⟩ := runCommands_reads_block_only ws (blockAfterDraws v 0)
  refine ⟨b', .ok 0#64 :: rs, fun s => ?_⟩
  have hseed := runCommand_of_decode (decode_encode (.seed v)) s
  obtain ⟨t, ht, htb, htr⟩ := hws (complete (seedBlock v s.block) 0#64 (accept (encode (.seed v)) s))
    (seedBlock_eq_blockAfterDraws v s.block)
  exact ⟨t, runCommands_cons_eq_some.mpr ⟨_, hseed, ht⟩, htb, htr.trans (List.append_cons _ _ _).symm⟩

/-- Settles O28: both runs end as a run that starts with `seed v` does from any state. -/
theorem resultsAfterSeedForgetThePast : Obligations.ResultsAfterSeedForgetThePast := by
  unfold Obligations.ResultsAfterSeedForgetThePast
  intro v ws s₁ s₂
  obtain ⟨b', rs, hrun⟩ := runCommands_seed_reads_nothing v ws
  obtain ⟨t₁, ht₁, hb₁, hr₁⟩ := hrun s₁
  obtain ⟨t₂, ht₂, hb₂, hr₂⟩ := hrun s₂
  exact ⟨t₁, t₂, rs, ht₁, ht₂, hr₁, hr₂, hb₁.trans hb₂.symm⟩

end Sys2Proof.Machine
end

section
/-! The sequence form of the twist (spec/42_twist_engine.md R103, R105): a twist reads new words below its own step and
old ones from there up, so it carries a window of `X` to the window 624 places on. -/

namespace Sys2Proof.Machine

/-- After the first `k` steps of the twist the words below `k` are the twist's, the others are still the old ones. -/
theorem twistLoop_getElem (x : StateVector) (k : Nat) (h : k ≤ 624) (j : Nat) (hj : j < 624) :
    (twistLoop x k h)[j] = if j < k then (twist x)[j] else x[j] := by
  split
  next hlt => exact twistLoop_final x k h j hlt
  next hge => exact twistLoop_keeps_above x k h j hj (Nat.not_lt.mp hge)

/-- Word `r` as step `i` of the twist of `x` finds it: new where an earlier step has written it (R103). -/
def wordAtTwistStep (x : StateVector) (i r : Nat) (hr : r < 624) : Word :=
  if r < i then (twist x)[r] else x[r]

/-- Each word of a twist, from the words its step finds (R100, R103). -/
theorem twist_getElem (x : StateVector) (i : Nat) (h : i < 624) :
    (twist x)[i] = twistWord x[i] (wordAtTwistStep x i (nextIndex i) (nextIndex_lt i))
      (wordAtTwistStep x i (feedIndex i) (feedIndex_lt i)) := by
  rw [← twistLoop_final x (i + 1) h i (Nat.lt_succ_self i), twistLoop, twistStep_getElem, if_pos rfl,
    twistLoop_keeps_above x i _ i h le_rfl, twistLoop_getElem, twistLoop_getElem]
  rfl

theorem slideWindow_getElem_of_lt (w : StateVector) (i : Nat) (h : i + 1 < 624) :
    (slideWindow w)[i] = w[i + 1] := by
  unfold slideWindow
  rw [Vector.getElem_ofFn, dif_pos h]

theorem slideWindow_getElem_last (w : StateVector) :
    (slideWindow w)[623] = twistWord w[0] w[1] w[397] := by
  unfold slideWindow
  rw [Vector.getElem_ofFn, dif_neg (lt_irrefl 624)]

/-- The window `X[k..k+623]` holds what its name says. -/
theorem window_getElem (v : Word) :
    ∀ (i k : Nat) (h : i < 624), (window v k)[i] = sequenceWord v (k + i)
  | 0, _, _ => rfl
  | i + 1, k, h => by
    rw [← slideWindow_getElem_of_lt _ i h, Nat.add_comm i, ← Nat.add_assoc]
    exact window_getElem v i (k + 1) (Nat.lt_of_succ_lt h)

/-- `X` begins with the seeded vector (R105). -/
theorem sequenceWord_eq_seedVec (v : Word) (i : Nat) (h : i < 624) : sequenceWord v i = (seedVec v)[i] := by
  have hwindow := window_getElem v i 0 h
  rw [Nat.zero_add] at hwindow
  exact hwindow.symm

/-- The recurrence of R105: `X[k+624]` from `X[k]`, `X[k+1]` and `X[k+397]`. -/
theorem sequenceWord_add_624 (v : Word) (k : Nat) :
    sequenceWord v (k + 624) =
      twistWord (sequenceWord v k) (sequenceWord v (k + 1)) (sequenceWord v (k + 397)) := by
  calc sequenceWord v (k + 624) = (window v (k + 1))[623] := by rw [window_getElem, Nat.add_assoc]
    _ = twistWord (window v k)[0] (window v k)[1] (window v k)[397] := slideWindow_getElem_last _
    _ = _ := by rw [window_getElem, window_getElem, window_getElem, Nat.add_zero]

/-- The twist of `X[n..n+623]` is `X[n+624..n+1247]`: the word a step finds `d` places on, around the vector's end,
is the one `d` places on in `X`. -/
theorem twist_getElem_of_sequence {v : Word} {n : Nat} {x : StateVector}
    (hx : ∀ (i : Nat) (h : i < 624), x[i] = sequenceWord v (n + i)) (i : Nat) (h : i < 624) :
    (twist x)[i] = sequenceWord v (n + 624 + i) := by
  induction i using Nat.strong_induction_on with
  | h i ih =>
    have found : ∀ d, 0 < d → d < 624 →
        wordAtTwistStep x i ((i + d) % 624) (Nat.mod_lt _ (by decide)) = sequenceWord v (n + i + d) := by
      intro d hd0 hd
      unfold wordAtTwistStep
      split
      next hnew =>
        rw [ih _ hnew]
        congr 1
        omega
      next hold =>
        rw [hx]
        congr 1
        omega
    have hnext := found 1 (by decide) (by decide)
    have hfeed := found 397 (by decide) (by decide)
    calc (twist x)[i]
        = twistWord x[i] (wordAtTwistStep x i (nextIndex i) _) (wordAtTwistStep x i (feedIndex i) _) :=
          twist_getElem x i h
      _ = twistWord (sequenceWord v (n + i)) (sequenceWord v (n + i + 1)) (sequenceWord v (n + i + 397)) :=
          congr (congrArg₂ twistWord (hx i h) hnext) hfeed
      _ = sequenceWord v (n + i + 624) := (sequenceWord_add_624 v (n + i)).symm
      _ = sequenceWord v (n + 624 + i) := by rw [Nat.add_right_comm]

/-- Word `i` after `t` twists of the seeded vector is `X[624·t + i]` (R105). -/
theorem twists_seedVec_getElem (v : Word) (t i : Nat) (h : i < 624) :
    (twists t (seedVec v))[i] = sequenceWord v (624 * t + i) := by
  induction t generalizing i with
  | zero => rw [Nat.mul_zero, Nat.zero_add, sequenceWord_eq_seedVec v i h, twists]
  | succ t ih => exact twist_getElem_of_sequence ih i h

end Sys2Proof.Machine
end

section
/-! What a draw answers and leaves (spec/41_next_u32.md R90 to R94): the rules of the operation the three draws share,
then `next_u32` and its output stream. -/

namespace Sys2Proof.Machine

/-- A draw keeps the host port's record, on a seeded block or not. -/
theorem draw_hostPortKept (form : Word → DataWord) (s : State) : HostPortKept s (draw form s) := by
  obtain ⟨-, h⟩ | ⟨-, h⟩ := draw_cases form s
  · rw [h]
    exact ⟨rfl, rfl, rfl⟩
  · rw [h]
    exact ⟨rfl, rfl, rfl⟩

/-- Below 624 a draw answers the word at the cursor and only advances (R91). -/
theorem draw_of_cur_lt (form : Word → DataWord) (s : State) (h : s.block.cur.val < 624) :
    draw form s = complete { x := s.block.x, cur := ⟨s.block.cur.val + 1, by omega⟩ }
      (form (temper s.block.x[s.block.cur.val])) s := by
  rw [draw, if_pos ((seeded_iff _).mpr (by omega)), drawRaw_below _ h]

/-- At 624 a draw twists, answers the new word 0 and leaves the cursor at 1 (R91). -/
theorem draw_of_cur_eq (form : Word → DataWord) (s : State) (h : s.block.cur.val = 624) :
    draw form s = complete { x := twist s.block.x, cur := 1 } (form (temper (twist s.block.x)[0])) s := by
  rw [draw, if_pos ((seeded_iff _).mpr (by omega)), drawRaw_twists _ h.ge]

/-- On an unseeded block a draw raises UNSEEDED (R151). -/
theorem draw_of_cur_unseeded (form : Word → DataWord) (s : State) (h : s.block.cur.val = 625) :
    draw form s = raise .unseeded s := by
  rw [draw, if_neg fun hs => (seeded_iff _).mp hs h]

/-- The block a draw leaves does not depend on its output form (R93). -/
theorem draw_block_eq (f g : Word → DataWord) (s : State) : (draw f s).block = (draw g s).block := by
  unfold draw
  split <;> rfl

/-- Zero extension puts a word under 32 zero bits (R64). -/
theorem zext64_eq_append (u : Word) : zext64 u = 0#32 ++ u :=
  BitVec.setWidth_eq_append (by decide)

/-- Settles O20: a draw with the output form of zero extension, below 624 and at it. -/
theorem nextU32ResultAndFrame : Obligations.NextU32ResultAndFrame := by
  unfold Obligations.NextU32ResultAndFrame
  intro s _
  refine ⟨draw zext64 s, exec_draw .nextU32 s rfl, draw_hostPortKept zext64 s, fun hlt => ?_, fun heq => ?_⟩
  · rw [draw_of_cur_lt _ s hlt, ← zext64_eq_append]
    exact ⟨rfl, rfl, rfl⟩
  · rw [draw_of_cur_eq _ s heq, ← zext64_eq_append]
    exact ⟨rfl, rfl, rfl⟩

/-- A draw on a seeded block moves the cursor one place, from 624 around to 1 (R91, R93). -/
theorem draw_cur_val (form : Word → DataWord) (s : State) (h : s.block.cur.val ≤ 624) :
    (draw form s).block.cur.val = s.block.cur.val % 624 + 1 := by
  obtain hlt | heq := h.lt_or_eq
  · rw [draw_of_cur_lt _ s hlt, complete_block, Nat.mod_eq_of_lt hlt]
  · rw [draw_of_cur_eq _ s heq, complete_block, heq]
    rfl

/-- Settles O24: the draws differ in their output forms only, and the block reads none of them. -/
theorem drawsShareOneStream : Obligations.DrawsShareOneStream := by
  unfold Obligations.DrawsShareOneStream
  intro i j s hi hj
  refine ⟨_, _, exec_draw i s hi, exec_draw j s hj, draw_block_eq _ _ s, draw_cur_val _ s, fun h => ?_⟩
  rw [draw_of_cur_unseeded _ s h, raise_block]

/-- The twists of the first `k` draws and the cursor after them give the place of the next draw's word in `X`: no place
is skipped at a twist. -/
theorem twistsAfterDraws_mul_add_cursor (k : Nat) :
    624 * twistsAfterDraws k + cursorAfterDraws k = 624 + k := by
  cases k with
  | zero => rfl
  | succ k =>
    rw [cursorAfterDraws_succ, twistsAfterDraws]
    omega

/-- Draw number `k + 1` after `seed v` reads `X[624 + k]`, whether or not it twists (R94). -/
theorem drawRaw_blockAfterDraws_word (v : Word) (k : Nat) :
    (drawRaw (blockAfterDraws v k)).1 = sequenceWord v (624 + k) := by
  have hnumber := twistsAfterDraws_mul_add_cursor k
  obtain hlt | heq := (cursorAfterDraws_le k).lt_or_eq
  · rw [drawRaw_below _ hlt]
    simp only [blockAfterDraws_x, blockAfterDraws_cur_val]
    rw [twists_seedVec_getElem, hnumber]
  · have hnext : 624 * (twistsAfterDraws k + 1) + 0 = 624 + k := by omega
    have hword := twists_seedVec_getElem v (twistsAfterDraws k + 1) 0 (by decide)
    rw [drawRaw_twists _ heq.ge, ← hnext]
    exact hword

/-- `seed v` and `k` draws by `next_u32` leave the closed form of R31, and the answers are the tempered words of `X`
from place 624 on. -/
theorem runCommands_seed_nextU32 (v : Word) (s : State) (k : Nat) :
    ∃ t, runCommands (encode (.seed v) :: List.replicate k (encode .nextU32)) s = some t ∧
      t.block = blockAfterDraws v k ∧
      t.responses = s.responses ++ .ok 0#64 ::
        (List.range k).map (fun j => .ok (zext64 (temper (sequenceWord v (624 + j))))) := by
  induction k with
  | zero =>
    have hseed := runCommand_of_decode (decode_encode (.seed v)) s
    exact ⟨_, runCommands_cons_eq_some.mpr ⟨_, hseed, rfl⟩, seedBlock_eq_blockAfterDraws v s.block, rfl⟩
  | succ k ih =>
    obtain ⟨u, hu, hblock, hresponses⟩ := ih
    have hdraw := runCommand_draw (i := .nextU32) rfl (hblock ▸ blockAfterDraws_seeded v k)
    have hrun := runCommands_concat hdraw _ s hu
    rw [List.cons_append, ← List.replicate_succ'] at hrun
    refine ⟨_, hrun, ?_, ?_⟩
    · rw [complete_block, hblock, drawRaw_blockAfterDraws]
    · rw [complete_responses, accept_responses, hresponses, hblock, drawRaw_blockAfterDraws_word,
        List.range_succ, List.map_append, List.append_assoc]
      rfl

/-- Settles O27: the answers of the run of `seed v` and `k` draws, its block left aside. -/
theorem outputStreamOfNextU32 : Obligations.OutputStreamOfNextU32 := by
  unfold Obligations.OutputStreamOfNextU32
  intro v k s
  obtain ⟨t, ht, -, hresponses⟩ := runCommands_seed_nextU32 v s k
  exact ⟨t, ht, hresponses⟩

end Sys2Proof.Machine
end

section
/-! The twist's word function and indices (spec/42_twist_engine.md R100 to R102): the bits of `y` and the feedback word
they select, and the two indices with their `mod` resolved. -/

namespace Sys2Proof.Machine

/-- R100 in numerals, the feedback word chosen by bit 0 of `y`. -/
theorem twistWord_eq (xi xj xk : Word) :
    twistWord xi xj xk =
      xk ^^^ (twistY xi xj >>> 1) ^^^
        (if (twistY xi xj).getLsbD 0 then 0x9908B0DF#32 else 0x00000000#32) := by
  rw [twistWord, mag01_lowBit]

/-- `y` has its bit 31 from `x[i]` and every other bit from `x[j]` (R101). -/
theorem getLsbD_twistY (xi xj : Word) (b : Nat) :
    (twistY xi xj).getLsbD b = if b = 31 then xi.getLsbD 31 else xj.getLsbD b := by
  have hupper : upperMask = BitVec.twoPow 32 31 := by decide
  have hlower : lowerMask = ~~~BitVec.twoPow 32 31 := by decide
  rw [twistY, hupper, hlower, BitVec.getLsbD_or, BitVec.getLsbD_and, BitVec.getLsbD_and, BitVec.getLsbD_not,
    BitVec.getLsbD_twoPow]
  split
  next htop => simp [htop]
  next hlow =>
    obtain hlt | hge := Nat.lt_or_ge b 32
    · simp [hlt, Ne.symm hlow]
    · simp [BitVec.getLsbD_of_ge _ _ hge]

/-- The bits of `y >> 1` are those of `y`, one place down. -/
theorem getLsbD_twistY_shiftRight_one (xi xj : Word) (b : Nat) :
    (twistY xi xj >>> 1).getLsbD b = if b = 30 then xi.getLsbD 31 else xj.getLsbD (b + 1) := by
  rw [BitVec.getLsbD_ushiftRight, Nat.add_comm, getLsbD_twistY]
  simp only [Nat.reduceEqDiff]

/-- Settles O12: bits 0 and 31 of `y`, the bits of `y >> 1` down from 31, and the feedback word bit 0 selects. -/
theorem twistFeedbackBits : Obligations.TwistFeedbackBits := by
  unfold Obligations.TwistFeedbackBits
  intro xi xj
  have hbit0 : (twistY xi xj).getLsbD 0 = xj.getLsbD 0 := getLsbD_twistY xi xj 0
  refine ⟨hbit0, getLsbD_twistY xi xj 31, ?_, getLsbD_twistY_shiftRight_one xi xj 30, fun b hb => ?_, fun xk => ?_⟩
  · exact (getLsbD_twistY_shiftRight_one xi xj 31).trans (BitVec.getLsbD_of_ge xj 32 le_rfl)
  · rw [getLsbD_twistY_shiftRight_one, if_neg (by omega)]
  · rw [twistWord_eq, hbit0]

/-- Of `x[i]` a twist step uses bit 31 only (R101, R106). -/
theorem twistWord_congr_of_bit31 {xi xi' : Word} (h : xi.getLsbD 31 = xi'.getLsbD 31) (xj xk : Word) :
    twistWord xi xj xk = twistWord xi' xj xk := by
  have hy : twistY xi xj = twistY xi' xj :=
    BitVec.eq_of_getLsbD_eq fun b _ => by rw [getLsbD_twistY, getLsbD_twistY, h]
  rw [twistWord, twistWord, hy]

theorem nextIndex_of_lt {i : Nat} (h : i < 623) : nextIndex i = i + 1 :=
  Nat.mod_eq_of_lt (Nat.succ_lt_succ h)

/-- The edge case of R102. -/
theorem nextIndex_last : nextIndex 623 = 0 := rfl

theorem feedIndex_of_lt {i : Nat} (h : i < 227) : feedIndex i = i + 397 :=
  Nat.mod_eq_of_lt (Nat.add_lt_add_right h 397)

/-- From step 227 on the feed index has gone round the vector once (R102). -/
theorem feedIndex_of_ge {i : Nat} (hge : 227 ≤ i) (hlt : i < 624) : feedIndex i = i - 227 := by
  unfold feedIndex
  omega

/-- Settles O13: each index below its edge and from it on. -/
theorem twistIndexArithmetic : Obligations.TwistIndexArithmetic := by
  unfold Obligations.TwistIndexArithmetic
  refine ⟨fun i hi => ⟨nextIndex_lt i, feedIndex_lt i, ?_, ?_⟩, nextIndex_last, rfl⟩
  · split
    next hlast => rw [hlast, nextIndex_last]
    next hbelow => exact nextIndex_of_lt (by omega)
  · split
    next hle => exact feedIndex_of_lt (by omega)
    next hgt => exact feedIndex_of_ge (by omega) hi

end Sys2Proof.Machine
end

section
/-! What the twist's steps read, the sequence form in numerals, the three-segment form, and what the twist leaves unread
of `x[0]` (spec/42_twist_engine.md R103 to R106). -/

namespace Sys2Proof.Machine

/-- A step finds words from its own up as they were before the twist. -/
theorem wordAtTwistStep_old (x : StateVector) {i r : Nat} (hr : r < 624) (h : i ≤ r) :
    wordAtTwistStep x i r hr = x[r] :=
  if_neg (Nat.not_lt.mpr h)

/-- A step finds words below its own as the twist leaves them. -/
theorem wordAtTwistStep_new (x : StateVector) {i r : Nat} (hr : r < 624) (h : r < i) :
    wordAtTwistStep x i r hr = (twist x)[r] :=
  if_pos h

/-- `x[j]` is old but at the last step, which reads the new `x[0]` (R103). -/
theorem wordAtTwistStep_nextIndex (x : StateVector) (i : Nat) (h : i < 624) :
    wordAtTwistStep x i (nextIndex i) (nextIndex_lt i) = if h' : i < 623 then x[i + 1] else (twist x)[0] := by
  split
  next hbelow =>
    simp only [nextIndex_of_lt hbelow]
    exact wordAtTwistStep_old x _ (Nat.le_succ i)
  next hlast =>
    obtain rfl : i = 623 := by omega
    exact wordAtTwistStep_new x _ (by decide)

/-- `x[k]` is old below step 227, and new once the feed index has gone round the vector (R103). -/
theorem wordAtTwistStep_feedIndex (x : StateVector) (i : Nat) (h : i < 624) :
    wordAtTwistStep x i (feedIndex i) (feedIndex_lt i) =
      if h' : i < 227 then x[i + 397] else (twist x)[i - 227]'(by omega) := by
  split
  next hbelow =>
    simp only [feedIndex_of_lt hbelow]
    exact wordAtTwistStep_old x _ (Nat.le_add_right i 397)
  next hround =>
    simp only [feedIndex_of_ge (Nat.not_lt.mp hround) h]
    exact wordAtTwistStep_new x _ (by omega)

/-- Settles O11: of the words a step reads, the rewritten ones are those behind it. -/
theorem twistReadsOldAndNewWords : Obligations.TwistReadsOldAndNewWords := by
  unfold Obligations.TwistReadsOldAndNewWords
  intro x i h xj xk y
  rw [twist_getElem x i h, wordAtTwistStep_nextIndex x i h, wordAtTwistStep_feedIndex x i h]
  exact twistWord_eq x[i] xj xk

/-- Settles O16: the beginning of `X`, its recurrence, and the twists by induction on their number. -/
theorem sequenceFormOfTheTwist : Obligations.SequenceFormOfTheTwist := by
  unfold Obligations.SequenceFormOfTheTwist
  intro v
  refine ⟨sequenceWord_eq_seedVec v, fun k => ?_, twists_seedVec_getElem v⟩
  exact (sequenceWord_add_624 v k).trans (twistWord_eq _ _ _)

/-- A twist step with its indices known. -/
theorem twistStep_of_indices (x : StateVector) {i j k : Nat} (h : i < 624) (hj : nextIndex i = j)
    (hk : feedIndex i = k) :
    twistStep x i h =
      x.set i (twistWord x[i] (x[j]'(hj ▸ nextIndex_lt i)) (x[k]'(hk ▸ feedIndex_lt i))) := by
  subst hj hk
  rfl

/-- The first segment is the first 227 steps of the loop (R104). -/
theorem segment1_eq_twistLoop (x : StateVector) (k : Nat) (h : k ≤ 227) :
    segment1 x k h = twistLoop x k (by omega) := by
  induction k with
  | zero => rfl
  | succ k ih =>
    rw [segment1, ih, twistLoop,
      twistStep_of_indices _ _ (nextIndex_of_lt (by omega)) (feedIndex_of_lt h), segment1Step]

/-- The second segment takes the loop from step 227 on to step 623 (R104). -/
theorem segment2_twistLoop (x : StateVector) (k : Nat) (h : k ≤ 396) :
    segment2 (twistLoop x 227 (by decide)) k h = twistLoop x (227 + k) (by omega) := by
  induction k with
  | zero => rfl
  | succ k ih =>
    have hfeed : feedIndex (227 + k) = k := by
      rw [feedIndex_of_ge (by omega) (by omega), Nat.add_sub_cancel_left]
    rw [segment2, ih]
    exact (twistStep_of_indices _ _ (nextIndex_of_lt (by omega)) hfeed).symm

/-- Settles O15: the three segments are the loop's steps in the loop's order. -/
theorem threeSegmentFormEqualsTwist : Obligations.ThreeSegmentFormEqualsTwist := by
  unfold Obligations.ThreeSegmentFormEqualsTwist
  intro x
  unfold threeSegmentTwist twist
  rw [segment1_eq_twistLoop, segment2_twistLoop]
  exact (twistStep_of_indices _ (by decide) nextIndex_last rfl).symm

/-- Step 0 overwrites `x[0]`, of which it reads bit 31 only. -/
theorem twistStep_zero_set_zero {x : StateVector} {w : Word} (h : w.getLsbD 31 = x[0].getLsbD 31) :
    twistStep (x.set 0 w) 0 (by decide) = twistStep x 0 (by decide) := by
  have hnext : nextIndex 0 = 1 := rfl
  have hfeed : feedIndex 0 = 397 := rfl
  rw [twistStep_of_indices _ _ hnext hfeed, twistStep_of_indices _ _ hnext hfeed, Vector.set_set,
    Vector.getElem_set_self, Vector.getElem_set_ne _ _ (by decide), Vector.getElem_set_ne _ _ (by decide),
    twistWord_congr_of_bit31 h]

/-- Once step 0 has run, nothing is left of bits 30:0 of the old `x[0]` (R106). -/
theorem twistLoop_succ_set_zero {x : StateVector} {w : Word} (h : w.getLsbD 31 = x[0].getLsbD 31) (k : Nat)
    (hk : k + 1 ≤ 624) : twistLoop (x.set 0 w) (k + 1) hk = twistLoop x (k + 1) hk := by
  induction k with
  | zero => exact twistStep_zero_set_zero h
  | succ k ih => rw [twistLoop, ih, ← twistLoop]

/-- Settles O17: no step of the loop tells the two first words apart. -/
theorem twistIgnoresLowBitsOfFirstWord : Obligations.TwistIgnoresLowBitsOfFirstWord := by
  unfold Obligations.TwistIgnoresLowBitsOfFirstWord
  intro x w h
  unfold twist
  exact twistLoop_succ_set_zero h 623 le_rfl

end Sys2Proof.Machine
end

section
/-! The stages of tempering, their worked examples, and the inverse (spec/43_tempering.md R115, R118). -/

namespace Sys2Proof.Machine

theorem temper_zero : temper 0#32 = 0#32 := by decide

/-- The largest output is reachable (R115). -/
theorem temper_eq_allOnes : temper 0x12DD9BB3#32 = 0xFFFFFFFF#32 := by decide

/-- Settles O18: the stages compose in the order R115 writes them, and its examples are computed. -/
theorem temperStagesAndExamples : Obligations.TemperStagesAndExamples :=
  ⟨fun _ => rfl, temper_zero, temper_eq_allOnes, by decide⟩

/-- Passes `t <- y ^ L t` that undo `y = x ^ L x` keep the exact word `x`, and move what the guess is off by, `e`,
through the additive map `L`. -/
theorem repeated_pass_xor {L : Word → Word} (hL : ∀ a b, L (a ^^^ b) = L a ^^^ L b) (x e : Word) (n : Nat) :
    repeated (fun t => (x ^^^ L x) ^^^ L t) n (x ^^^ e) = x ^^^ L^[n] e := by
  induction n generalizing e with
  | zero => rfl
  | succ n ih =>
    have hpass : (x ^^^ L x) ^^^ L (x ^^^ e) = x ^^^ L e := by
      rw [hL, BitVec.xor_assoc, ← BitVec.xor_assoc (L x), BitVec.xor_self, BitVec.zero_xor]
    rw [repeated, hpass, ih, Function.iterate_succ_apply]

/-- Passes that start from `x ^ L x` are off by `L x`; they are exact once `L` has moved that out of the word. -/
theorem repeated_pass_of_iterate_eq_zero {L : Word → Word} (hL : ∀ a b, L (a ^^^ b) = L a ^^^ L b) {x : Word}
    {n : Nat} (h : L^[n] (L x) = 0#32) : repeated (fun t => (x ^^^ L x) ^^^ L t) n (x ^^^ L x) = x := by
  rw [repeated_pass_xor hL, h, BitVec.xor_zero]

/-- What stages 2 and 3 exclusive-or into the word they read: `(y << s) & m`. -/
def maskedShift (s : Nat) (m y : Word) : Word := (y <<< s) &&& m

theorem maskedShift_xor (s : Nat) (m a b : Word) :
    maskedShift s m (a ^^^ b) = maskedShift s m a ^^^ maskedShift s m b := by
  ext i hi
  simp [maskedShift, BitVec.shiftLeft_xor_distrib, Bool.and_xor_distrib_right]

/-- Each masked left shift clears `s` more low bits: with them a pass of R118 makes `s` more bits exact. -/
theorem getLsbD_iterate_maskedShift {c : Nat} {e : Word} (s : Nat) (m : Word) (he : ∀ b < c, e.getLsbD b = false)
    (k : Nat) : ∀ b < c + s * k, ((maskedShift s m)^[k] e).getLsbD b = false := by
  induction k with
  | zero => exact he
  | succ k ih =>
    intro b hb
    rw [Function.iterate_succ_apply', maskedShift, BitVec.getLsbD_and, BitVec.getLsbD_shiftLeft]
    by_cases hs : b < s
    · simp [hs]
    · rw [ih (b - s) (by rw [Nat.mul_succ] at hb; omega)]
      simp

/-- A masked shift starts with the mask's `c` clear low bits; `k` more clear the word once `c + s * k` reaches 32. -/
theorem iterate_maskedShift_eq_zero {s c k : Nat} {m : Word} (hm : ∀ b < c, m.getLsbD b = false)
    (h : 32 ≤ c + s * k) (x : Word) : (maskedShift s m)^[k] (maskedShift s m x) = 0#32 := by
  have he : ∀ b < c, (maskedShift s m x).getLsbD b = false := fun b hb => by
    rw [maskedShift, BitVec.getLsbD_and, hm b hb, Bool.and_false]
  exact BitVec.eq_of_getLsbD_eq fun b hb => by
    rw [getLsbD_iterate_maskedShift s m he k b (by omega), BitVec.getLsbD_zero]

/-- Logical right shifts add up. -/
theorem iterate_shiftRight (s k : Nat) (x : Word) : (· >>> s : Word → Word)^[k] x = x >>> (s * k) := by
  induction k with
  | zero => rfl
  | succ k ih => rw [Function.iterate_succ_apply', ih, ← BitVec.shiftRight_add, Nat.mul_succ]

theorem iterate_shiftRight_eq_zero {s k : Nat} (h : 32 ≤ s + s * k) (x : Word) :
    (· >>> s : Word → Word)^[k] (x >>> s) = 0#32 := by
  rw [iterate_shiftRight, ← BitVec.shiftRight_add, BitVec.ushiftRight_eq_zero h]

/-- Three passes exceed the two that R118 needs. -/
theorem untemper1_temper1 (x : Word) : untemper1 (temper1 x) = x :=
  repeated_pass_of_iterate_eq_zero (fun a b => BitVec.ushiftRight_xor_distrib a b 11)
    (iterate_shiftRight_eq_zero (by decide) x)

/-- `TEMPER_B` has 7 clear low bits, and five passes exceed the four that R118 needs. -/
theorem untemper2_temper2 (x : Word) : untemper2 (temper2 x) = x :=
  repeated_pass_of_iterate_eq_zero (maskedShift_xor 7 temperB)
    (iterate_maskedShift_eq_zero (c := 7) (by decide) (by decide) x)

/-- `TEMPER_C` has 17 clear low bits, so that stage 3 is its own inverse: one pass is exact (R118). -/
theorem temper3_temper3 (x : Word) : temper3 (temper3 x) = x :=
  repeated_pass_of_iterate_eq_zero (n := 1) (maskedShift_xor 15 temperC)
    (iterate_maskedShift_eq_zero (c := 17) (by decide) (by decide) x)

/-- Twice 18 exceeds the word's width, so that stage 4 is its own inverse: one pass is exact (R118). -/
theorem temper4_temper4 (x : Word) : temper4 (temper4 x) = x :=
  repeated_pass_of_iterate_eq_zero (n := 1) (fun a b => BitVec.ushiftRight_xor_distrib a b 18)
    (iterate_shiftRight_eq_zero (by decide) x)

theorem untemper_temper (raw : Word) : untemper (temper raw) = raw := by
  rw [untemper, temper, temper4_temper4, temper3_temper3, untemper2_temper2, untemper1_temper1]

/-- There are finitely many words, so `temper`, which has a left inverse, also reaches every word. -/
theorem temper_untemper (y : Word) : temper (untemper y) = y :=
  have hleft : Function.LeftInverse untemper temper := untemper_temper
  hleft.rightInverse_of_surjective (Finite.surjective_of_injective hleft.injective) y

/-- Settles O19: the passes of `untemper` undo the stages of `temper` one by one, and its examples are those of R115
read backwards. -/
theorem temperIsABijection : Obligations.TemperIsABijection := by
  unfold Obligations.TemperIsABijection
  refine ⟨temper_untemper, untemper_temper, ?_, ?_⟩
  · rw [← temper_eq_allOnes, untemper_temper]
  · simpa only [temper_zero] using untemper_temper 0#32

end Sys2Proof.Machine
end

section
/-! How far rounding moves a number, and the bounded integer (spec/44_derived_outputs.md R136 to R138): rounding is
monotone past every number of 53 significant bits, so it never crosses one. -/

namespace Sys2Proof.Machine

/-- Rounding does not fall below a number of 53 significant bits that `Q` has reached. -/
theorem le_rne53_of_le {Q c e : Nat} (hc : c < 2 ^ 53) (h : c * 2 ^ e ≤ Q) : c * 2 ^ e ≤ rne53 Q := by
  have hnear := (rne53_nearest Q c e hc).1
  generalize c * 2 ^ e = v at *
  by_contra hlt
  rw [abs_of_nonpos (by omega), abs_of_nonpos (by omega)] at hnear
  omega

/-- Rounding does not rise above a number of 53 significant bits that `Q` has not passed. -/
theorem rne53_le_of_le {Q c e : Nat} (hc : c < 2 ^ 53) (h : Q ≤ c * 2 ^ e) : rne53 Q ≤ c * 2 ^ e := by
  have hnear := (rne53_nearest Q c e hc).1
  generalize c * 2 ^ e = v at *
  by_contra hlt
  rw [abs_of_nonneg (by omega), abs_of_nonneg (by omega)] at hnear
  omega

/-- Rounding moves a 64-bit number by at most 2^10, half the spacing of the multiples of 2^11. -/
theorem rne53_error {Q : Nat} (h : Q < 2 ^ 64) : Q ≤ rne53 Q + 2 ^ 10 ∧ rne53 Q ≤ Q + 2 ^ 10 := by
  obtain ⟨c, e, hc, hce⟩ := mul_two_pow_has_significand (n := (Q + 2 ^ 10) / 2 ^ 11) 11 (by omega)
  have hnear := (rne53_nearest Q c e hc).1
  rw [← hce] at hnear
  have hmul : |(((Q + 2 ^ 10) / 2 ^ 11 * 2 ^ 11 : Nat) : ℤ) - Q| ≤ 2 ^ 10 := abs_le.mpr (by omega)
  have herr := abs_le.mp (hnear.trans hmul)
  omega

/-- The product of two words is a 64-bit number. -/
theorem toNat_mul_toNat_lt (u m : Word) : u.toNat * m.toNat < 2 ^ 64 :=
  Nat.mul_lt_mul'' (c := 2 ^ 32) (d := 2 ^ 32) u.isLt m.isLt

/-- The rounded product stays below `m × 2^32` (R137): under 2^53 it is exact, and above, a number of 53 significant
bits lies between it and `m × 2^32`. -/
theorem rne53_mul_lt {u m : Word} (hm : m ≠ 0#32) : rne53 (u.toNat * m.toNat) < m.toNat * 2 ^ 32 := by
  have hpos := BitVec.toNat_pos_of_ne_zero hm
  have hprod : u.toNat * m.toNat + m.toNat ≤ m.toNat * 2 ^ 32 := by
    have hu : u.toNat + 1 ≤ 2 ^ 32 := u.isLt
    calc u.toNat * m.toNat + m.toNat = m.toNat * (u.toNat + 1) := by ring
      _ ≤ m.toNat * 2 ^ 32 := Nat.mul_le_mul_left _ hu
  obtain hsmall | hlarge := Nat.lt_or_ge m.toNat (2 ^ 21)
  · rw [rne53_below _ (by omega)]
    omega
  · have hle : rne53 (u.toNat * m.toNat) ≤ (m.toNat * 2 ^ 21 - 1) * 2 ^ 11 :=
      rne53_le_of_le (by omega) (by omega)
    omega

/-- For the bound 0 the rounded product is 0. -/
theorem rne53_mul_zero (u : Word) : rne53 (u.toNat * (0#32).toNat) = 0 := rne53_below _ (by simp)

/-- The bounded integer loses no bit of `RNE53(u × m) >> 32` (R136). -/
theorem bounded_toNat (u m : Word) : (bounded u m).toNat = rne53 (u.toNat * m.toNat) / 2 ^ 32 := by
  have hlt : rne53 (u.toNat * m.toNat) < 2 ^ 32 * 2 ^ 32 := by
    by_cases hm : m = 0#32
    · rw [hm, rne53_mul_zero]
      decide
    · exact (rne53_mul_lt hm).trans (Nat.mul_lt_mul_of_pos_right m.isLt (by decide))
  rw [bounded, BitVec.toNat_ofNat, Nat.shiftRight_eq_div_pow, Nat.mod_eq_of_lt (Nat.div_lt_of_lt_mul hlt)]

/-- Settles O38: the rounded product stays below `m × 2^32`. -/
theorem boundedRange : Obligations.BoundedRange := by
  unfold Obligations.BoundedRange
  refine fun u m => ⟨fun hm => BitVec.eq_of_toNat_eq ?_, fun hm => ?_, bounded_toNat u m⟩
  · rw [bounded_toNat, hm, rne53_mul_zero]
    rfl
  · rw [bounded_toNat]
    exact Nat.div_lt_of_lt_mul ((rne53_mul_lt hm).trans_eq (mul_comm _ _))

/-- Settles O39: rounding moves the product by at most 2^10 and not below the multiple of 2^32 under it, and leaves it
alone below 2^53. -/
theorem boundedMayExceedTheQuotientByOne : Obligations.BoundedMayExceedTheQuotientByOne := by
  unfold Obligations.BoundedMayExceedTheQuotientByOne
  refine ⟨fun u m => ?_, by decide, by decide⟩
  have hlt := toNat_mul_toNat_lt u m
  rw [bounded_toNat]
  generalize u.toNat * m.toNat = P at *
  have hfloor : P / 2 ^ 32 * 2 ^ 32 ≤ rne53 P := le_rne53_of_le (by omega) (Nat.div_mul_le_self P _)
  have herr := rne53_error hlt
  have hbelow := rne53_below P
  omega

/-- The data of `next_bounded_u32` are the shifted rounded product, as a number (R136). -/
theorem zext64_bounded (u m : Word) :
    zext64 (bounded u m) = BitVec.ofNat 64 (rne53 (u.toNat * m.toNat) / 2 ^ 32) := by
  rw [← bounded_toNat, BitVec.ofNat_toNat, zext64]

/-- Any draw command on a seeded block: one draw, below 624 and at it, answered OK in the command's output form
(R91). -/
theorem exec_draw_result_and_frame {i : Instr} (hi : i.isDraw = true) (s : State) :
    ∃ t, exec i s = .next t ∧ HostPortKept s t ∧
      (∀ h : s.block.cur.val < 624,
        t.block.x = s.block.x ∧ t.block.cur.val = s.block.cur.val + 1 ∧
        t.responses = s.responses ++ [.ok (Instr.form i (temper s.block.x[s.block.cur.val]))]) ∧
      (s.block.cur.val = 624 →
        t.block.x = twist s.block.x ∧ t.block.cur.val = 1 ∧
        t.responses = s.responses ++ [.ok (Instr.form i (temper (twist s.block.x)[0]))]) := by
  refine ⟨_, exec_draw i s hi, draw_hostPortKept _ s, fun hlt => ?_, fun heq => ?_⟩
  · rw [draw_of_cur_lt _ s hlt]
    exact ⟨rfl, rfl, rfl⟩
  · rw [draw_of_cur_eq _ s heq]
    exact ⟨rfl, rfl, rfl⟩

/-- Settles O21: a draw with the output form `F64Bits`. -/
theorem nextF64ResultAndFrame : Obligations.NextF64ResultAndFrame := by
  unfold Obligations.NextF64ResultAndFrame
  exact fun s _ => exec_draw_result_and_frame (i := .nextF64) rfl s

/-- Settles O22: a draw with the output form of the bounded integer. -/
theorem nextBoundedU32ResultAndFrame : Obligations.NextBoundedU32ResultAndFrame := by
  unfold Obligations.NextBoundedU32ResultAndFrame
  intro m s _
  simp only [← zext64_bounded]
  exact exec_draw_result_and_frame (i := .nextBoundedU32 m) rfl s

end Sys2Proof.Machine
end

section
/-! What an encoding of the binary64 format stands for, and which one is nearest to a number (spec/00_scope.md R9): no
encoding's value lies strictly between neighbours whose significand has 53 bits, so the nearer neighbour is nearest. -/

namespace Sys2Proof.Machine.Binary64

/-- The encoding of a positive number by its biased exponent and fraction (R64). -/
def positive (e f : Nat) : DataWord := 0b0#1 ++ BitVec.ofNat 11 e ++ BitVec.ofNat 52 f

@[simp] theorem positive_sign (e f : Nat) : (positive e f).getLsbD 63 = false :=
  (BitVec.getLsbD_append (x := 0b0#1 ++ BitVec.ofNat 11 e)).trans (BitVec.getLsbD_append (x := 0b0#1))

theorem positive_exponent {e : Nat} (he : e < 2 ^ 11) (f : Nat) : exponent (positive e f) = e := by
  have hfield : (positive e f).extractLsb' 52 11 = (0b0#1 ++ BitVec.ofNat 11 e).extractLsb' 0 11 :=
    BitVec.extractLsb'_append_eq_of_le (xhi := 0b0#1 ++ BitVec.ofNat 11 e) (Nat.le_refl 52)
  rw [exponent, hfield, BitVec.extractLsb'_append_eq_of_add_le (Nat.le_refl _), BitVec.extractLsb'_eq_self,
    BitVec.toNat_ofNat, Nat.mod_eq_of_lt he]

theorem positive_fraction (e : Nat) {f : Nat} (hf : f < 2 ^ 52) : fraction (positive e f) = f := by
  have hfield : (positive e f).extractLsb' 0 52 = (BitVec.ofNat 52 f).extractLsb' 0 52 :=
    BitVec.extractLsb'_append_eq_of_add_le (xhi := 0b0#1 ++ BitVec.ofNat 11 e) (Nat.le_refl 52)
  rw [fraction, hfield, BitVec.extractLsb'_eq_self, BitVec.toNat_ofNat, Nat.mod_eq_of_lt hf]

/-- An encoding below the infinities is finite. -/
theorem positive_finite {e : Nat} (he : e < 2047) (f : Nat) : finite (positive e f) = true := by
  rw [finite, positive_exponent (by omega)]
  simp
  omega

/-- A normal number is its 53-bit significand, scaled. -/
theorem positive_value {e f : Nat} (he : e ≠ 0) (he' : e < 2047) (hf : f < 2 ^ 52) :
    value (positive e f) = ((2 ^ 52 + f : Nat) : ℚ) * 2 ^ ((e : ℤ) - 1075) := by
  rw [value, positive_sign, magnitude, positive_exponent (by omega), positive_fraction e hf]
  simp [he]

/-- A magnitude has at most 53 significant bits. -/
theorem magnitude_eq_significand (b : DataWord) :
    ∃ (n : Nat) (j : ℤ), n < 2 ^ 53 ∧ magnitude b = (n : ℚ) * 2 ^ j := by
  have hf : fraction b < 2 ^ 52 := BitVec.isLt _
  unfold magnitude
  split
  · exact ⟨fraction b, -1074, by omega, rfl⟩
  · exact ⟨2 ^ 52 + fraction b, exponent b - 1075, by omega, rfl⟩

/-- A number of at most 53 significant bits misses the gap between neighbours whose significand has 53 bits, at any
scale. -/
theorem mul_zpow_outside_gap {n s : Nat} (hs : 2 ^ 52 ≤ s) (hn : n < 2 ^ 53) (j k : ℤ) :
    (n : ℚ) * 2 ^ j ≤ s * 2 ^ k ∨ (s + 1 : ℚ) * 2 ^ k ≤ n * 2 ^ j := by
  obtain ⟨d, a, b, rfl, rfl⟩ : ∃ (d : ℤ) (a b : Nat), j = a + d ∧ k = b + d :=
    ⟨min j k, (j - min j k).toNat, (k - min j k).toNat, by omega, by omega⟩
  have hd : (0 : ℚ) < 2 ^ d := by positivity
  simp only [zpow_add₀ (two_ne_zero (α := ℚ)), zpow_natCast, ← mul_assoc, mul_le_mul_iff_of_pos_right hd]
  exact_mod_cast mul_two_pow_outside_gap hs hn

/-- No encoding's value lies between neighbours whose significand has 53 bits. -/
theorem value_outside_gap {s : Nat} (hs : 2 ^ 52 ≤ s) (k : ℤ) (b : DataWord) :
    value b ≤ s * 2 ^ k ∨ (s + 1 : ℚ) * 2 ^ k ≤ value b := by
  obtain ⟨n, j, hn, hmag⟩ := magnitude_eq_significand b
  rw [value, hmag]
  split
  · have hneg : -((n : ℚ) * 2 ^ j) ≤ 0 := neg_nonpos.mpr (by positivity)
    exact .inl (hneg.trans (by positivity))
  · exact mul_zpow_outside_gap hs hn j k

/-- The nearer end `y` of a gap around `x` is nearest to `x` among the rationals `v` outside the gap, and another is as
near only where `x` is the midpoint. -/
theorem nearest_of_outside_rational_gap {lo hi x y v : ℚ} (hlo : lo ≤ x) (hhi : x ≤ hi) (hv : v ≤ lo ∨ hi ≤ v)
    (hy : y = lo ∧ 2 * x ≤ lo + hi ∨ y = hi ∧ lo + hi ≤ 2 * x) :
    |y - x| ≤ |v - x| ∧ (|y - x| = |v - x| → v = y ∨ 2 * x = lo + hi) := by
  obtain ⟨rfl, hmid⟩ | ⟨rfl, hmid⟩ := hy
  · rw [abs_of_nonpos (by linarith)]
    obtain hv | hv := hv
    · rw [abs_of_nonpos (by linarith)]
      exact ⟨by linarith, fun h => .inl (by linarith)⟩
    · rw [abs_of_nonneg (by linarith)]
      exact ⟨by linarith, fun h => .inr (by linarith)⟩
  · rw [abs_of_nonneg (by linarith)]
    obtain hv | hv := hv
    · rw [abs_of_nonpos (by linarith)]
      exact ⟨by linarith, fun h => .inr (by linarith)⟩
    · rw [abs_of_nonneg (by linarith)]
      exact ⟨by linarith, fun h => .inl (by linarith)⟩

/-- Reading off the nearest encoding: the nearer of two neighbours around `x` whose significand has 53 bits, the one
with an even fraction where `x` is the midpoint. -/
theorem isNearest_of_gap {s : Nat} {k : ℤ} {x : ℚ} {b : DataWord} (hs : 2 ^ 52 ≤ s) (hfin : finite b = true)
    (hlo : s * 2 ^ k ≤ x) (hhi : x ≤ (s + 1) * 2 ^ k)
    (hb : value b = s * 2 ^ k ∧ 2 * x ≤ s * 2 ^ k + (s + 1) * 2 ^ k ∨
      value b = (s + 1) * 2 ^ k ∧ s * 2 ^ k + (s + 1) * 2 ^ k ≤ 2 * x)
    (htie : 2 * x = s * 2 ^ k + (s + 1) * 2 ^ k → fraction b % 2 = 0) : IsNearest x b := by
  refine ⟨hfin, fun c _ => ?_⟩
  obtain ⟨hle, heq⟩ := nearest_of_outside_rational_gap hlo hhi (value_outside_gap hs k c) hb
  exact ⟨hle, fun h => (heq h).imp_right htie⟩

/-- A number that has an encoding is its own nearest value. -/
theorem isNearest_value {b : DataWord} (hfin : finite b = true) : IsNearest (value b) b := by
  refine ⟨hfin, fun c _ => ?_⟩
  rw [sub_self, abs_zero]
  exact ⟨abs_nonneg _, fun h => .inl (sub_eq_zero.mp (abs_eq_zero.mp h.symm))⟩

theorem recip_eq_positive : recip = positive 991 (2 ^ 20) := by decide

/-- The value of `RECIP` (R126). -/
theorem recip_value : value recip = (1 + 1 / 2 ^ 32 : ℚ) / 2 ^ 32 := by
  rw [recip_eq_positive, positive_value (by decide) (by decide) (by decide)]
  norm_num

end Sys2Proof.Machine.Binary64

namespace Sys2Proof.Machine

open Binary64

/-- Settles O32: 1 / (2^32 - 1) lies just above `RECIP`, in the lower half of the gap to the next value. -/
theorem recipIsTheNearestReciprocal : Obligations.RecipIsTheNearestReciprocal := by
  unfold Obligations.RecipIsTheNearestReciprocal
  refine ⟨rfl, isNearest_of_gap (s := 2 ^ 52 + 2 ^ 20) (k := -84) (by decide) (by decide) ?_ ?_ (.inl ⟨?_, ?_⟩) ?_,
    recip_value⟩
  · norm_num
  · norm_num
  · rw [recip_value]
    norm_num
  · norm_num
  · norm_num

/-- Settles O36: the exact quotient lies in the upper half of the gap above what `next_f64` answers. -/
theorem multiplyingIsNotDividing : Obligations.MultiplyingIsNotDividing := by
  unfold Obligations.MultiplyingIsNotDividing
  have hf64 : f64Bits 0x0FB5D240#32 = positive 1018 0xF6BA4801F6BA4 := by decide
  have hdiv : 0x3FAF6BA4801F6BA5#64 = positive 1018 0xF6BA4801F6BA5 := by decide
  refine ⟨by decide, ?_, ?_⟩
  · refine isNearest_of_gap (s := 2 ^ 52 + 0xF6BA4801F6BA4) (k := -57) (by decide) (by decide) ?_ ?_
      (.inr ⟨?_, ?_⟩) ?_
    · norm_num
    · norm_num
    · rw [hdiv, positive_value (by decide) (by decide) (by decide)]
      norm_num
    · norm_num
    · norm_num
  · rw [hf64, hdiv, positive_value (by decide) (by decide) (by decide),
      positive_value (by decide) (by decide) (by decide)]
    norm_num

end Sys2Proof.Machine
end

section
/-! The encoding of an integer scaled by a power of two (spec/44_derived_outputs.md R127): exact where the integer has
at most 53 significant bits, and nearest to `Q` scaled where the integer is `RNE53(Q)`. -/

namespace Sys2Proof.Machine

open Binary64

/-- The significand of `F64Bits` (R127): `R` shifted to 53 bits. -/
def significand (R : Nat) : Nat :=
  if bitLength R ≤ 53 then R <<< (53 - bitLength R) else R >>> (bitLength R - 53)

/-- The encoding of `R × 2^-t`: what `F64Bits` makes of its `R` for `t` = 64 (R127). -/
def scaled (R t : Nat) : DataWord :=
  if R = 0 then 0x0000000000000000#64 else positive (bitLength R + 1022 - t) (significand R - 2 ^ 52)

theorem scaled_zero (t : Nat) : scaled 0 t = 0x0000000000000000#64 := if_pos rfl

theorem scaled_of_ne_zero {R : Nat} (h : R ≠ 0) (t : Nat) :
    scaled R t = positive (bitLength R + 1022 - t) (significand R - 2 ^ 52) := if_neg h

theorem bitLength_pos {R : Nat} (h : R ≠ 0) : 0 < bitLength R := by
  rw [bitLength, if_neg h]
  exact Nat.succ_pos _

/-- Up to 2^64 the bit length is at most 65. -/
theorem bitLength_le_of_le {R : Nat} (h : R ≠ 0) (hR : R ≤ 2 ^ 64) : bitLength R ≤ 65 := by
  have hpow : 2 ^ (bitLength R - 1) ≤ 2 ^ 64 := (bitLength_bounds R h).1.trans hR
  have := (Nat.pow_le_pow_iff_right (by decide)).mp hpow
  omega

/-- No bit of `R` is lost in its significand where `R` has at most 53 significant bits. -/
theorem significand_mul_two_pow {R : Nat} (h : R ≠ 0) (hsig : ∃ c e : Nat, c < 2 ^ 53 ∧ R = c * 2 ^ e) :
    significand R * 2 ^ bitLength R = R * 2 ^ 53 := by
  unfold significand
  split
  next hle => rw [Nat.shiftLeft_eq, mul_assoc, ← pow_add, Nat.sub_add_cancel hle]
  next hgt =>
    obtain ⟨c, e, hc, hce⟩ := hsig
    have hlt : 2 ^ (bitLength R - 1) < 2 ^ (53 + e) :=
      calc 2 ^ (bitLength R - 1) ≤ c * 2 ^ e := hce ▸ (bitLength_bounds R h).1
        _ < 2 ^ 53 * 2 ^ e := Nat.mul_lt_mul_of_pos_right hc (Nat.two_pow_pos e)
        _ = 2 ^ (53 + e) := (pow_add 2 53 e).symm
    have hexp := (Nat.pow_lt_pow_iff_right (by decide)).mp hlt
    have hdvd : 2 ^ (bitLength R - 53) ∣ R := by
      conv_rhs => rw [hce]
      exact Dvd.dvd.mul_left (pow_dvd_pow 2 (by omega)) c
    calc R >>> (bitLength R - 53) * 2 ^ bitLength R
        = R / 2 ^ (bitLength R - 53) * 2 ^ (bitLength R - 53) * 2 ^ 53 := by
          rw [Nat.shiftRight_eq_div_pow, mul_assoc, ← pow_add, Nat.sub_add_cancel (by omega)]
      _ = R * 2 ^ 53 := by rw [Nat.div_mul_cancel hdvd]

/-- The significand has 53 bits. -/
theorem significand_bounds {R : Nat} (h : R ≠ 0) (hsig : ∃ c e : Nat, c < 2 ^ 53 ∧ R = c * 2 ^ e) :
    2 ^ 52 ≤ significand R ∧ significand R < 2 ^ 53 := by
  obtain ⟨hl, hu⟩ := bitLength_bounds R h
  have heq := significand_mul_two_pow h hsig
  have hdouble : 2 ^ bitLength R = 2 * 2 ^ (bitLength R - 1) := by
    rw [← pow_succ', Nat.sub_add_cancel (bitLength_pos h)]
  constructor
  · by_contra hc
    nlinarith
  · by_contra hc
    nlinarith

/-- An even number of units leaves an even significand, also where the number of units has reached 2^53. -/
theorem significand_even {s n a b : Nat} (hs : 2 ^ 52 ≤ s) (hn : n ≤ 2 ^ 53) (heven : n % 2 = 0)
    (h : s * 2 ^ a = n * 2 ^ b) : s % 2 = 0 := by
  obtain hab | hab := Nat.lt_or_ge b a
  · have hn : s * 2 ^ (a - b - 1) * 2 = n := by
      apply Nat.mul_right_cancel (Nat.two_pow_pos b)
      rw [← h, mul_assoc, mul_assoc, ← pow_succ', ← pow_add]
      congr 2
      omega
    have hle : s * 1 ≤ s * 2 ^ (a - b - 1) := Nat.mul_le_mul_left s (Nat.two_pow_pos _)
    omega
  · have hs : s = n * 2 ^ (b - a) := by
      apply Nat.mul_right_cancel (Nat.two_pow_pos a)
      rw [h, mul_assoc, ← pow_add, Nat.sub_add_cancel hab]
    rw [hs, Nat.mul_mod, heven, zero_mul, Nat.zero_mod]

/-- The encoding is never negative. -/
theorem scaled_sign (R t : Nat) : (scaled R t).getLsbD 63 = false := by
  unfold scaled
  split
  · decide
  · exact positive_sign _ _

section
variable {R t : Nat} (hsig : ∃ c e : Nat, c < 2 ^ 53 ∧ R = c * 2 ^ e) (hR : R ≤ 2 ^ 64) (ht : t ≤ 64)
include hR ht

theorem scaled_exponent (h : R ≠ 0) : exponent (scaled R t) = bitLength R + 1022 - t := by
  have hlen := bitLength_le_of_le h hR
  rw [scaled_of_ne_zero h, positive_exponent (by omega)]

theorem scaled_finite : finite (scaled R t) = true := by
  by_cases h : R = 0
  · rw [h, scaled_zero]
    decide
  · have hlen := bitLength_le_of_le h hR
    rw [scaled_of_ne_zero h]
    exact positive_finite (by omega) _

include hsig

/-- A number of at most 53 significant bits is scaled exactly. -/
theorem scaled_value : value (scaled R t) = (R : ℚ) / 2 ^ t := by
  by_cases h : R = 0
  · rw [h, scaled_zero]
    norm_num [value, magnitude, exponent, fraction]
  · have hlen := bitLength_le_of_le h hR
    have hpos := bitLength_pos h
    obtain ⟨hlo, hhi⟩ := significand_bounds h hsig
    have hexact : (significand R : ℚ) * 2 ^ bitLength R = R * 2 ^ 53 := by
      exact_mod_cast significand_mul_two_pow h hsig
    have hexp : ((bitLength R + 1022 - t : Nat) : ℤ) - 1075 = bitLength R - (t + 53 : Nat) := by omega
    rw [scaled_of_ne_zero h, positive_value (by omega) (by omega) (by omega), Nat.add_sub_cancel' hlo, hexp,
      zpow_sub₀ two_ne_zero, zpow_natCast, zpow_natCast, ← mul_div_assoc, hexact, pow_add,
      mul_div_mul_right _ _ (by norm_num)]

end

/-- Rounding a 64-bit number gives at most 2^64. -/
theorem rne53_le_two_pow {Q : Nat} (hQ : Q < 2 ^ 64) : rne53 Q ≤ 2 ^ 64 := by
  have := rne53_le_of_le (c := 1) (e := 64) (by decide) (hQ.le.trans_eq (one_mul _).symm)
  rwa [one_mul] at this

theorem scaled_rne53_value {Q t : Nat} (hQ : Q < 2 ^ 64) (ht : t ≤ 64) :
    value (scaled (rne53 Q) t) = (rne53 Q : ℚ) / 2 ^ t :=
  scaled_value (rne53_has_significand Q) (rne53_le_two_pow hQ) ht

/-- A result of `n` units, `n` even, is encoded with an even fraction. -/
theorem scaled_fraction_even {n k t : Nat} (hn : n ≤ 2 ^ 53) (hpos : n ≠ 0) (heven : n % 2 = 0) :
    fraction (scaled (n * 2 ^ k) t) % 2 = 0 := by
  have h0 : n * 2 ^ k ≠ 0 := Nat.mul_ne_zero hpos (Nat.two_pow_pos k).ne'
  have hsig := mul_two_pow_has_significand k hn
  obtain ⟨hlo, hhi⟩ := significand_bounds h0 hsig
  have hs := significand_even (b := k + 53) hlo hn heven
    ((significand_mul_two_pow h0 hsig).trans (by rw [mul_assoc, ← pow_add]))
  rw [scaled_of_ne_zero h0, positive_fraction _ (by omega)]
  omega

/-- `RNE53(Q)` scaled by a power of two is the nearest binary64 value to `Q` scaled: the range of exponents bounds no
64-bit number (R10, R127, R136). -/
theorem isNearest_scaled_rne53 {Q t : Nat} (hQ : Q < 2 ^ 64) (ht : t ≤ 64) :
    IsNearest ((Q : ℚ) / 2 ^ t) (scaled (rne53 Q) t) := by
  have hfin := scaled_finite (rne53_le_two_pow hQ) ht
  have hval := scaled_rne53_value hQ ht
  obtain hlt | hge := Nat.lt_or_ge Q (2 ^ 53)
  · rw [rne53_below Q hlt] at hval hfin ⊢
    exact hval ▸ isNearest_value hfin
  · obtain ⟨q, n, hq, hn, hR, hlo, hhi, hnear, htie⟩ := rne53_nearer_neighbour Q hge
    have hunit : (2 : ℚ) ^ ((bitLength Q - 53 : Nat) - t : ℤ) = 2 ^ (bitLength Q - 53) / 2 ^ t := by
      rw [zpow_sub₀ two_ne_zero, zpow_natCast, zpow_natCast]
    have hmid : q * 2 ^ (bitLength Q - 53) + (q + 1) * 2 ^ (bitLength Q - 53) =
        (2 * q + 1) * 2 ^ (bitLength Q - 53) := by ring
    have ht0 : (0 : ℚ) < 2 ^ t := by positivity
    rw [hR] at hval hfin ⊢
    refine isNearest_of_gap (s := q) (k := (bitLength Q - 53 : Nat) - t) hq hfin ?_ ?_ ?_ ?_
    all_goals simp only [hval, hunit, ← mul_div_assoc, ← add_div, div_le_div_iff_of_pos_right ht0,
      div_left_inj' ht0.ne']
    · exact_mod_cast hlo
    · exact_mod_cast hhi
    · norm_cast
      rw [hmid]
      obtain ⟨rfl, h⟩ | ⟨rfl, h⟩ := hnear
      · exact .inl ⟨rfl, h⟩
      · exact .inr ⟨rfl, h⟩
    · norm_cast
      rw [hmid]
      refine fun h => scaled_fraction_even hn ?_ (htie h)
      obtain ⟨rfl, -⟩ | ⟨rfl, -⟩ := hnear <;> omega

end Sys2Proof.Machine
end

section
/-! The value of `next_f64` (spec/44_derived_outputs.md R125 to R128) and the floating-point form of the bounded integer
(R135, R136): both are scaled rounded products. -/

namespace Sys2Proof.Machine

open Binary64

/-- The concatenation of a word with itself is a product (R127). -/
theorem doubled_toNat (u : Word) : (doubled u).toNat = u.toNat * (2 ^ 32 + 1) := by
  have h : (doubled u).toNat = u.toNat <<< 32 ||| u.toNat := BitVec.toNat_append u u
  rw [h, ← Nat.shiftLeft_add_eq_or_of_lt u.isLt, Nat.shiftLeft_eq, mul_add, mul_one]

/-- The product `F64Bits` rounds is a 64-bit number. -/
theorem doubled_lt (u : Word) : u.toNat * (2 ^ 32 + 1) < 2 ^ 64 := doubled_toNat u ▸ BitVec.isLt _

/-- A later word has a greater rounded product: the step is 2^32 + 1 and rounding moves each by at most 2^10 (R128). -/
theorem rne53_doubled_lt_rne53_doubled {u v : Word} (h : u.toNat < v.toNat) :
    rne53 (u.toNat * (2 ^ 32 + 1)) < rne53 (v.toNat * (2 ^ 32 + 1)) := by
  have hu := rne53_error (doubled_lt u)
  have hv := rne53_error (doubled_lt v)
  omega

/-- The rounded product is 0 for the word 0 only (R127, R128). -/
theorem rne53_doubled_ne_zero {u : Word} (h : u ≠ 0#32) : rne53 (u.toNat * (2 ^ 32 + 1)) ≠ 0 :=
  Nat.ne_zero_of_lt (rne53_doubled_lt_rne53_doubled (u := 0#32) (BitVec.toNat_pos_of_ne_zero h))

/-- `F64Bits` encodes the rounded product, scaled (R127). -/
theorem f64Bits_eq_scaled (u : Word) : f64Bits u = scaled (rne53 (u.toNat * (2 ^ 32 + 1))) 64 := by
  by_cases h : u = 0#32
  · rw [h]
    decide
  · rw [f64Bits, if_neg h, doubled_toNat, scaled_of_ne_zero (rne53_doubled_ne_zero h),
      Nat.add_sub_assoc (by decide)]
    rfl

/-- The value of `F64Bits` (R127). -/
theorem f64Bits_value (u : Word) : value (f64Bits u) = (rne53 (u.toNat * (2 ^ 32 + 1)) : ℚ) / 2 ^ 64 := by
  rw [f64Bits_eq_scaled, scaled_rne53_value (doubled_lt u) (le_refl 64)]

/-- Settles O34: the concatenation as a product, and the value of the encoding. -/
theorem f64BitsEncodesTheRoundedConcatenation : Obligations.F64BitsEncodesTheRoundedConcatenation := by
  unfold Obligations.F64BitsEncodesTheRoundedConcatenation
  exact fun u => ⟨doubled_toNat u, f64Bits_value u⟩

/-- Settles O33: `u × RECIP` is the product `u × (2^32 + 1)` scaled by 2^-64. -/
theorem f64BitsIsTheRoundedProduct : Obligations.F64BitsIsTheRoundedProduct := by
  unfold Obligations.F64BitsIsTheRoundedProduct
  intro u
  have hproduct : (u.toNat : ℚ) * value recip = ((u.toNat * (2 ^ 32 + 1) : Nat) : ℚ) / 2 ^ 64 := by
    rw [recip_value]
    push_cast
    ring
  rw [hproduct, f64Bits_eq_scaled]
  exact isNearest_scaled_rne53 (doubled_lt u) (le_refl 64)

/-- A later word has a greater value (R128). -/
theorem f64Bits_value_lt_f64Bits_value {u v : Word} (h : u.toNat < v.toNat) :
    value (f64Bits u) < value (f64Bits v) := by
  rw [f64Bits_value, f64Bits_value, div_lt_div_iff_of_pos_right (by positivity)]
  exact_mod_cast rne53_doubled_lt_rne53_doubled h

theorem f64Bits_value_zero : value (f64Bits 0#32) = 0 := by
  rw [f64Bits_value, rne53_below _ (by decide)]
  norm_num

theorem f64Bits_value_allOnes : value (f64Bits 0xFFFFFFFF#32) = 1 := by
  have hround : rne53 ((0xFFFFFFFF#32).toNat * (2 ^ 32 + 1)) = 2 ^ 64 := by decide
  rw [f64Bits_value, hround]
  norm_num

/-- Only the word 0 has a value that is not positive. -/
theorem f64Bits_value_pos {u : Word} (h : u ≠ 0#32) : 0 < value (f64Bits u) := by
  rw [← f64Bits_value_zero]
  exact f64Bits_value_lt_f64Bits_value (BitVec.toNat_pos_of_ne_zero h)

/-- Only the greatest word has a value that is not below 1. -/
theorem f64Bits_value_lt_one {u : Word} (h : u ≠ 0xFFFFFFFF#32) : value (f64Bits u) < 1 := by
  rw [← f64Bits_value_allOnes]
  exact f64Bits_value_lt_f64Bits_value
    (Nat.lt_of_le_of_ne (Nat.le_of_lt_succ u.isLt) fun heq => h (BitVec.eq_of_toNat_eq heq))

/-- A result other than 0 is a normal number. -/
theorem f64Bits_exponent_ne_zero {u : Word} (h : u ≠ 0#32) : exponent (f64Bits u) ≠ 0 := by
  rw [f64Bits_eq_scaled,
    scaled_exponent (rne53_le_two_pow (doubled_lt u)) (le_refl 64) (rne53_doubled_ne_zero h)]
  omega

/-- Settles O35: the values strictly increase from 0 to 1, and the encoding of a scaled number is non-negative and
finite. -/
theorem f64RangeAndOrder : Obligations.F64RangeAndOrder := by
  unfold Obligations.F64RangeAndOrder
  refine ⟨fun u => ⟨?_, ?_, ?_, ?_, ?_, ?_, f64Bits_exponent_ne_zero⟩, fun u v => f64Bits_value_lt_f64Bits_value,
    by decide, by decide, by decide, by decide, temper_eq_allOnes⟩
  · by_cases h : u = 0#32
    · rw [h, f64Bits_value_zero]
    · exact (f64Bits_value_pos h).le
  · by_cases h : u = 0xFFFFFFFF#32
    · rw [h, f64Bits_value_allOnes]
    · exact (f64Bits_value_lt_one h).le
  · exact ⟨fun h => by_contra fun hne => (f64Bits_value_pos hne).ne' h, fun h => h ▸ f64Bits_value_zero⟩
  · exact ⟨fun h => by_contra fun hne => (f64Bits_value_lt_one hne).ne h, fun h => h ▸ f64Bits_value_allOnes⟩
  · rw [f64Bits_eq_scaled, scaled_sign]
  · rw [f64Bits_eq_scaled]
    exact scaled_finite (rne53_le_two_pow (doubled_lt u)) (le_refl 64)

/-- Settles O37: the bound scaled by 2^-32 is exact, and the product of the word with it is the integer product scaled
by 2^-32. -/
theorem boundedIsTheFlooredProduct : Obligations.BoundedIsTheFlooredProduct := by
  unfold Obligations.BoundedIsTheFlooredProduct
  intro u m
  have hm : m.toNat < 2 ^ 53 := m.isLt.trans (by decide)
  have hP := toNat_mul_toNat_lt u m
  have hsc : value (scaled m.toNat 32) = (m.toNat : ℚ) / 4294967296 := by
    rw [scaled_value ⟨m.toNat, 0, hm, by simp⟩ (by omega) (by decide)]
    norm_num
  refine ⟨scaled m.toNat 32, scaled (rne53 (u.toNat * m.toNat)) 32, ?_, hsc, ?_, ?_⟩
  · rw [← hsc]
    exact isNearest_value (scaled_finite (by omega) (by decide))
  · have hproduct : (u.toNat : ℚ) * ((m.toNat : ℚ) / 4294967296) = ((u.toNat * m.toNat : Nat) : ℚ) / 2 ^ 32 := by
      push_cast
      ring
    rw [hsc, hproduct]
    exact isNearest_scaled_rne53 hP (by decide)
  · rw [scaled_rne53_value hP (by decide), bounded_toNat]
    exact_mod_cast Rat.floor_natCast_div_natCast (rne53 (u.toNat * m.toNat)) (2 ^ 32)

end Sys2Proof.Machine
end

section
/-! What a legal command answers and when a word is turned away (spec/60_exceptions.md R150, R151, R154): a seeded block
stays seeded and answers OK, and on an unseeded block the decoder speaks before the cursor does. -/

namespace Sys2Proof.Machine

/-- Settles O23: on an unseeded block the shared draw raises, and `seed` completes. -/
theorem unseededDrawsAreTurnedAway : Obligations.UnseededDrawsAreTurnedAway := by
  unfold Obligations.UnseededDrawsAreTurnedAway
  constructor
  · intro i s hi hcur
    have hx : exec i s = .next (raise .unseeded s) := by
      rw [exec_draw i s hi, draw_of_cur_unseeded _ s hcur]
    exact ⟨_, .raised .unseeded, hx, raise_block _ s, ⟨rfl, rfl, rfl⟩, raise_responses _ s, rfl, rfl⟩
  · intro v s t h
    obtain rfl := Host.Outcome.next.inj h
    exact complete_responses _ _ s

theorem seedBlock_seeded (v : Word) (b : Block) : (seedBlock v b).seeded = true :=
  (seeded_iff _).mpr (by rw [seedBlock_cur_val]; decide)

/-- A draw never leaves the sentinel (R24). -/
theorem drawRaw_seeded (b : Block) : (drawRaw b).2.seeded = true := by
  have hrange := drawRaw_cur_range b
  rw [seeded_iff]
  omega

/-- A legal command on a seeded block completes OK and leaves a seeded block, so the next one does too (R150). -/
theorem runCommand_ok_of_seeded {w : CommandWord} {i : Instr} (hd : decode w = .ok i) {s : State}
    (hs : s.block.seeded = true) :
    ∃ t d, runCommand w s = .next t ∧ t.block.seeded = true ∧ t.responses = s.responses ++ [.ok d] := by
  obtain ⟨v, -, hr⟩ | ⟨i, -, -, -, hr⟩ | ⟨-, -, -, hs', -⟩ | ⟨hd', -⟩ := runCommand_cases w s
  · exact ⟨_, _, hr, seedBlock_seeded v _, rfl⟩
  · exact ⟨_, _, hr, drawRaw_seeded _, rfl⟩
  · exact absurd (hs'.symm.trans hs) nofun
  · exact absurd (hd'.symm.trans hd) nofun

/-- Settles O25: such a command neither raises nor is reserved. -/
theorem legalCommandsOnASeededBlockCompleteOk : Obligations.LegalCommandsOnASeededBlockCompleteOk := by
  unfold Obligations.LegalCommandsOnASeededBlockCompleteOk
  intro w i s hd hcur
  obtain ⟨t, d, hr, -, hresponses⟩ := runCommand_ok_of_seeded hd ((seeded_iff s.block).mpr hcur)
  exact ⟨t, d, hr, hresponses⟩

/-- A word that decodes to a draw has not the `op` of `seed`. -/
theorem opField_ne_zero_of_isDraw {w : CommandWord} {i : Instr} (hd : decode w = .ok i) (hi : i.isDraw = true) :
    opField w ≠ 0b00#2 := by
  intro hop
  have hseed := (decode_eq_seed_iff w (argField w)).mpr ⟨hop, rfl⟩
  obtain rfl : i = .seed (argField w) := Except.ok.inj (hd.symm.trans hseed)
  cases hi

/-- Settles O43: a word is a `seed`, a draw or reserved, and only the draw asks whether the block is seeded. -/
theorem illegalIsCheckedBeforeUnseeded : Obligations.IllegalIsCheckedBeforeUnseeded := by
  unfold Obligations.IllegalIsCheckedBeforeUnseeded
  intro w s hcur
  obtain ⟨v, hd, hr⟩ | ⟨-, -, -, hs, -⟩ | ⟨i, hd, hi, -, hr⟩ | ⟨hd, hr⟩ := runCommand_cases w s
  · have hop : opField w = 0b00#2 := ((decode_eq_seed_iff w v).mp hd).1
    exact ⟨_, .ok 0#64, hr, rfl, fun _ => rfl, by simp [hop], by simp [hop], by simp [hop]⟩
  · exact absurd hcur ((seeded_iff s.block).mp hs)
  · have hop := opField_ne_zero_of_isDraw hd hi
    have hlegal : ¬((opField w = 0b01#2 ∨ opField w = 0b10#2) ∧ argField w ≠ 0#32) := by
      rw [← decode_eq_error_iff, hd]
      exact nofun
    exact ⟨_, .raised .unseeded, hr, rfl, fun h => absurd h hop, fun h => absurd h hlegal, fun _ => rfl, fun _ => rfl⟩
  · obtain ⟨hop, harg⟩ := (decode_eq_error_iff w).mp hd
    refine ⟨_, .raised .illegal, hr, rfl, fun h => ?_, fun _ => rfl, fun h => absurd h.2 harg, fun h => ?_⟩
    · simp [h] at hop
    · simp [h] at hop

/-- Settles O41: with no event to take, the step is the identity. -/
theorem idleBlockHoldsItsState : Obligations.IdleBlockHoldsItsState := by
  unfold Obligations.IdleBlockHoldsItsState
  intro s h
  simp only [step, h]

end Sys2Proof.Machine
end

section
/-! Runs of command words and their observation (spec/70_reset_and_hazards.md R173): every run pairs its words with its
responses, and on a seeded block a run of legal commands records no fault (spec/60_exceptions.md R150). -/

namespace Sys2Proof.Machine

/-- A run accepts its words in order, reserved ones too, and answers each of them once (R47, R63). -/
theorem runCommands_accepted_and_answered {t : State} :
    ∀ (ws : List CommandWord) (s : State), runCommands ws s = some t →
      t.accepted = s.accepted ++ ws ∧ t.responses.length = s.responses.length + ws.length
  | [], s, h => by
    obtain rfl := Option.some.inj h
    exact ⟨(List.append_nil _).symm, rfl⟩
  | w :: ws, s, h => by
    obtain ⟨u, hw, hu⟩ := runCommands_cons_eq_some.mp h
    obtain ⟨u', r, hw', hacc, hresp, -⟩ := oneAnswerAndErrorsWriteNothing w s
    obtain rfl := Host.Outcome.next.inj (hw'.symm.trans hw)
    obtain ⟨haccepted, hlength⟩ := runCommands_accepted_and_answered ws u' hu
    refine ⟨by rw [haccepted, hacc, ← List.append_cons], ?_⟩
    simp only [hlength, hresp, List.length_append, List.length_cons, List.length_nil]
    omega

/-- The observation of a run from reset is its words, each with its response (R173). -/
theorem observation_of_run_from_reset {ws : List CommandWord} {t : State} (h : runCommands ws State.reset = some t) :
    t.observation.map Prod.fst = ws ∧ t.observation.map Prod.snd = t.responses := by
  obtain ⟨haccepted, hlength⟩ := runCommands_accepted_and_answered ws _ h
  have haccepted : t.accepted = ws := haccepted
  have hlength : t.responses.length = ws.length := hlength.trans (Nat.zero_add _)
  rw [State.observation, haccepted]
  exact ⟨List.map_fst_zip hlength.ge, List.map_snd_zip hlength.le⟩

/-- An OK response records no fault. -/
theorem safe_of_ok {s t : State} {d : DataWord} (hs : s.safe = true) (h : t.responses = s.responses ++ [.ok d]) :
    t.safe = true := by
  have hfaults : t.faults = s.faults := by simp [State.faults, h, Response.fault]
  rw [State.safe, hfaults]
  exact hs

/-- Legal commands on a seeded block keep a safe run safe (R150). -/
theorem runCommands_legal_safe :
    ∀ (is : List Instr) (s : State), s.block.seeded = true → s.safe = true →
      ∃ t, runCommands (is.map encode) s = some t ∧ t.safe = true
  | [], s, _, hsafe => ⟨s, rfl, hsafe⟩
  | i :: is, s, hs, hsafe => by
    obtain ⟨u, d, hr, hu, hresponses⟩ := runCommand_ok_of_seeded (decode_encode i) hs
    obtain ⟨t, ht, htsafe⟩ := runCommands_legal_safe is u hu (safe_of_ok hsafe hresponses)
    exact ⟨t, runCommands_cons_eq_some.mpr ⟨u, hr, ht⟩, htsafe⟩

/-- Settles O48: `seed` completes OK and seeds the block, so the run stays safe, and any run pairs words and
responses. -/
theorem seededRunsOfLegalCommandsAreSafe : Obligations.SeededRunsOfLegalCommandsAreSafe := by
  unfold Obligations.SeededRunsOfLegalCommandsAreSafe
  intro v is
  have hseed := runCommand_of_decode (decode_encode (.seed v)) State.reset
  obtain ⟨t, ht, hsafe⟩ := runCommands_legal_safe is
    (complete (seedBlock v State.reset.block) 0#64 (accept (encode (.seed v)) State.reset))
    (seedBlock_seeded v _) rfl
  have hrun := runCommands_cons_eq_some.mpr ⟨_, hseed, ht⟩
  exact ⟨t, hrun, hsafe, observation_of_run_from_reset hrun⟩

end Sys2Proof.Machine
end

section
/-! Progress, reset and the boot sequence (spec/70_reset_and_hazards.md R170, R171, R178): every event of the host port
is answered by a next state, every event that is no command leaves the reset state, and only a `seed` makes draws
answer OK after it. -/

namespace Sys2Proof.Machine

/-- Settles O40: an idle step and a reset answer a state outright, and so does a command word, errors included. -/
theorem everyStepCompletes : Obligations.EveryStepCompletes := by
  unfold Obligations.EveryStepCompletes
  intro s
  obtain ⟨-, hidle⟩ | ⟨w, rest, -, hcommand⟩ | ⟨_, _, -, -, hreset⟩ := step_cases s
  · exact ⟨s, hidle⟩
  · obtain ⟨t, _, hw, -⟩ := oneAnswerAndErrorsWriteNothing w { s with inbox := rest }
    exact ⟨t, hcommand.trans hw⟩
  · exact ⟨_, hreset⟩

/-- The event a step takes is a reset unless it is a command word (R163, R170). -/
theorem step_of_not_command {s : State} {e : HostEvent} {rest : List HostEvent} (h : s.inbox = e :: rest)
    (he : ∀ w, e ≠ .command w) : step s = .next (takeReset { s with inbox := rest }) := by
  obtain ⟨hnil, -⟩ | ⟨w, _, hb, -⟩ | ⟨e', rest', hb, -, hs⟩ := step_cases s
  · exact absurd (h.symm.trans hnil) nofun
  · exact absurd (List.cons.inj (h.symm.trans hb)).1 (he w)
  · obtain ⟨-, rfl⟩ := List.cons.inj (h.symm.trans hb)
    exact hs

/-- Settles O46: none of the three events is a command word, so each is carried out as a reset. -/
theorem resetEventsLeaveTheResetState : Obligations.ResetEventsLeaveTheResetState := by
  unfold Obligations.ResetEventsLeaveTheResetState
  intro s e rest h hevent
  have he : ∀ w, e ≠ .command w := by
    obtain rfl | rfl | ⟨_, rfl⟩ := hevent <;> exact fun _ => nofun
  exact ⟨_, step_of_not_command h he, afterReset_cur_val _, takeReset_accepted _, takeReset_responses _,
    takeReset_inbox _⟩

/-- A draw command on an unseeded block is accepted and raises UNSEEDED (R151). -/
theorem runCommand_draw_unseeded {i : Instr} {s : State} (hi : i.isDraw = true) (hs : s.block.cur.val = 625) :
    runCommand (encode i) s = .next (raise .unseeded (accept (encode i) s)) := by
  rw [runCommand_of_decode (decode_encode i), exec_draw i _ hi, draw_of_cur_unseeded _ (accept (encode i) s) hs]

/-- Settles O47: the block after reset is unseeded, and the block after `seed v` is seeded. -/
theorem seedIsTheBootSequence : Obligations.SeedIsTheBootSequence := by
  unfold Obligations.SeedIsTheBootSequence
  intro v d hd
  constructor
  · have hdraw := runCommand_draw_unseeded (s := State.reset) hd (afterReset_cur_val 0)
    exact ⟨_, runCommands_cons_eq_some.mpr ⟨_, hdraw, rfl⟩, rfl, rfl⟩
  · have hseed := runCommand_of_decode (decode_encode (.seed v)) State.reset
    have hdraw := runCommand_draw (i := d)
      (s := complete (seedBlock v State.reset.block) 0#64 (accept (encode (.seed v)) State.reset)) hd
      (seedBlock_seeded v _)
    exact ⟨_, _, runCommands_cons_eq_some.mpr ⟨_, hseed, runCommands_cons_eq_some.mpr ⟨_, hdraw, rfl⟩⟩, rfl⟩

end Sys2Proof.Machine
end
